-- ==== Sys2Proof/Word.lean ====
section
/-! DEFINITION. The machine's data types. A cell is an `Int` and an address a `Nat` (unsigned, 20_memory.md R55), never sliced
into bits (00_scope.md R13, R16): arithmetic is exact, and the ranges of R8 are checks (`Machine.fitsCell`, `Machine.isAddr`)
that the state's invariant keeps. Beside them stand the three addressing modes and the five named failures. -/

namespace Sys2Proof

/-- The addressing modes (30_encoding.md R85). -/
inductive Mode where
  | position
  | immediate
  | relative
deriving DecidableEq, Repr

/-- The failures of a running core with the information R191 records for each (60_exceptions.md). The integers
are exact, so they may lie outside the cell range. -/
inductive FaultCause where
  /-- The instruction cell `v` is negative or its opcode field has no meaning (R192). -/
  | invalidOpcode (v : Int)
  /-- A mode digit of parameter `param` is 3 to 9; or `param` is 0 and `digit` is the number formed by the digits
  above the opcode's mode digits (R193). -/
  | invalidParameterMode (v : Int) (param : Nat) (digit : Nat)
  /-- The destination parameter `param` has mode Immediate (R194). -/
  | invalidDestinationMode (v : Int) (param : Nat)
  /-- The integer `a` was about to be used as an address and is none (R195). -/
  | invalidAddress (a : Int)
  /-- The exact sum or product `r` does not fit a cell (R196). -/
  | arithmeticOverflow (r : Int)
deriving DecidableEq, Repr

end Sys2Proof
end

