-- ==== Sys2Proof/Config.lean ====
section
/-! DEFINITION. The implementation parameters of 00_scope.md section 4, each with the value this hardware takes.
In every optional bound `none` stands for the symbol `inf`. The core has no free value (R12). -/

namespace Sys2Proof.Config

/-- `W`, the cell width in bits (R7, D1). -/
def cellWidth : Option Nat := some 128

/-- `CELL_MAX = 2^(W-1) - 1` for a width (R8). -/
def cellMaxOf (w : Option Nat) : Option Nat := w.map fun n => 2 ^ (n - 1) - 1

/-- `CELL_MIN = -2^(W-1)` for a width (R8). -/
def cellMinOf (w : Option Nat) : Option Int := w.map fun n => -((2 ^ (n - 1) : Nat) : Int)

/-- `CELL_MAX` of this hardware (R8). -/
def cellMax : Option Nat := cellMaxOf cellWidth

/-- `CELL_MIN` of this hardware (R8). -/
def cellMin : Option Int := cellMinOf cellWidth

/-- `ADDR_MAX = CELL_MAX` (R8, D3). -/
def addrMax : Option Nat := cellMax

/-- `MEM_CELLS_MAX` (R9, D5): the number of addresses that may hold a written cell at one time. -/
def memCellsMax : Option Nat := none

/-- `INQ_DEPTH` (R10, D6): the number of values the input queue can hold. -/
def inqDepth : Option Nat := none

/-- `OUT_DEPTH` (R10, D7): the number of values the output stream can record. -/
def outDepth : Option Nat := none

/-- `OPCODE_SET` (R11). -/
def opcodeSet : List Nat := [1, 2, 3, 4, 5, 6, 7, 8, 9, 99]

/-- `STRICT_MODE_DIGITS` (R11, D12): a digit above the mode digits an opcode uses must be 0. -/
def strictModeDigits : Bool := true

end Sys2Proof.Config
end

