-- ==== Sys2Proof/Syntax.lean ====
section
/-! DEFINITION. The instructions as the decoder yields them: one constructor per row of the opcode table, "one case
per opcode, carrying its modes" (30_encoding.md R82, R87). The parameters are cells of memory, fetched when
the instruction runs (R81), so they are no part of it. -/

namespace Sys2Proof

/-- `m1`, `m2`, `m3` are the modes of parameters 1, 2 and 3. -/
inductive Instr where
  /-- `ADD a, b, dest`, opcode 1. -/
  | add (m1 m2 m3 : Mode)
  /-- `MUL a, b, dest`, opcode 2. -/
  | mul (m1 m2 m3 : Mode)
  /-- `IN dest`, opcode 3. -/
  | input (m1 : Mode)
  /-- `OUT a`, opcode 4. -/
  | output (m1 : Mode)
  /-- `JT cond, target`, opcode 5. -/
  | jumpIfTrue (m1 m2 : Mode)
  /-- `JF cond, target`, opcode 6. -/
  | jumpIfFalse (m1 m2 : Mode)
  /-- `LT a, b, dest`, opcode 7. -/
  | lessThan (m1 m2 m3 : Mode)
  /-- `EQ a, b, dest`, opcode 8. -/
  | equals (m1 m2 m3 : Mode)
  /-- `ARB a`, opcode 9. -/
  | adjustRelativeBase (m1 : Mode)
  /-- `HLT`, opcode 99. -/
  | halt
deriving DecidableEq, Repr

end Sys2Proof
end

