-- ==== Sys2Proof/WellFormed.lean ====
section
/-! DEFINITION. Which terms of `Instr` are instructions: a destination parameter is never Immediate
(30_encoding.md R84, R93); every source parameter takes all three modes (40_engine.md R115). -/

namespace Sys2Proof

/-- Position and Relative, the modes a destination may have (R84, format columns C and A of SSD and D). -/
def Mode.isDestination : Mode → Bool
  | .position => true
  | .immediate => false
  | .relative => true

/-- The 99 well-formed instructions are those of R95. -/
def Instr.wellFormed : Instr → Bool
  | .add _ _ m3 => m3.isDestination
  | .mul _ _ m3 => m3.isDestination
  | .input m1 => m1.isDestination
  | .output _ => true
  | .jumpIfTrue _ _ => true
  | .jumpIfFalse _ _ => true
  | .lessThan _ _ m3 => m3.isDestination
  | .equals _ _ m3 => m3.isDestination
  | .adjustRelativeBase _ => true
  | .halt => true

end Sys2Proof
end

