-- ==== Sys2Proof/Decode.lean ====
section
/-! DEFINITION. The instruction decoder and the encoder (30_encoding.md). Fields are decimal digits of the
instruction cell's value; nothing is sliced into bits. -/

namespace Sys2Proof

/-- `digit(v, k)`: the decimal digit of weight `10^k` (00_scope.md R14). -/
def digit (v k : Nat) : Nat := v / 10 ^ k % 10

/-- `digits_above(v, k)`: the number formed by the digits of weight `10^k` and higher (R14). -/
def digitsAbove (v k : Nat) : Nat := v / 10 ^ k

/-- Mode digits 0, 1, 2; the digits 3 to 9 decode to no mode (R85, R91). -/
def modeOfDigit : Nat → Option Mode
  | 0 => some .position
  | 1 => some .immediate
  | 2 => some .relative
  | _ => none

/-- The digit of a mode (R85). -/
def Mode.digit : Mode → Nat
  | .position => 0
  | .immediate => 1
  | .relative => 2

/-- The mode of parameter `i`, digit `i + 1` of the cell, or the fault of R91. -/
def modeAt (v i : Nat) : Except FaultCause Mode :=
  match modeOfDigit (digit v (i + 1)) with
  | some m => .ok m
  | none => .error (.invalidParameterMode v i (digit v (i + 1)))

/-- With `n` parameters, every digit above position `n + 1` must be 0 when mode digits are strict (R92, D12). -/
def noExcessDigits (v n : Nat) : Except FaultCause Unit :=
  if Config.strictModeDigits && digitsAbove v (n + 2) != 0 then
    .error (.invalidParameterMode v 0 (digitsAbove v (n + 2)))
  else .ok ()

/-- The mode `m` of destination parameter `i` must not be Immediate (R93). -/
def destinationAllowed (v i : Nat) (m : Mode) : Except FaultCause Unit :=
  if m.isDestination then .ok () else .error (.invalidDestinationMode v i)

/-- Format SSD: two sources and a destination (R84); the checks stand in the order of R87. -/
def decodeSSD (v : Nat) (mk : Mode → Mode → Mode → Instr) : Except FaultCause Instr := do
  let m1 ← modeAt v 1
  let m2 ← modeAt v 2
  let m3 ← modeAt v 3
  noExcessDigits v 3
  destinationAllowed v 3 m3
  return mk m1 m2 m3

/-- Format SS: two sources (R84). -/
def decodeSS (v : Nat) (mk : Mode → Mode → Instr) : Except FaultCause Instr := do
  let m1 ← modeAt v 1
  let m2 ← modeAt v 2
  noExcessDigits v 2
  return mk m1 m2

/-- Format S: one source (R84). -/
def decodeS (v : Nat) (mk : Mode → Instr) : Except FaultCause Instr := do
  let m1 ← modeAt v 1
  noExcessDigits v 1
  return mk m1

/-- Format D: one destination (R84). -/
def decodeD (v : Nat) (mk : Mode → Instr) : Except FaultCause Instr := do
  let m1 ← modeAt v 1
  noExcessDigits v 1
  destinationAllowed v 1 m1
  return mk m1

/-- Format N: no parameter (R84). -/
def decodeN (v : Nat) (i : Instr) : Except FaultCause Instr := do
  noExcessDigits v 0
  return i

/-- The decoder on a non-negative cell: the opcode field selects the format (R82, R84, R87, R90). -/
def decodeNat (v : Nat) : Except FaultCause Instr :=
  match v % 100 with
  | 1 => decodeSSD v .add
  | 2 => decodeSSD v .mul
  | 3 => decodeD v .input
  | 4 => decodeS v .output
  | 5 => decodeSS v .jumpIfTrue
  | 6 => decodeSS v .jumpIfFalse
  | 7 => decodeSSD v .lessThan
  | 8 => decodeSSD v .equals
  | 9 => decodeS v .adjustRelativeBase
  | 99 => decodeN v .halt
  | _ => .error (.invalidOpcode v)

/-- `decode(v)` (R87). It reads nothing but the instruction cell; a negative cell is no instruction (R94). -/
def decode (v : Int) : Except FaultCause Instr :=
  if v < 0 then .error (.invalidOpcode v) else decodeNat v.toNat

/-- The opcode field of an instruction (R82). -/
def Instr.code : Instr → Nat
  | .add _ _ _ => 1
  | .mul _ _ _ => 2
  | .input _ => 3
  | .output _ => 4
  | .jumpIfTrue _ _ => 5
  | .jumpIfFalse _ _ => 6
  | .lessThan _ _ _ => 7
  | .equals _ _ _ => 8
  | .adjustRelativeBase _ => 9
  | .halt => 99

/-- The modes of an instruction's parameters, in order (R80). -/
def Instr.modes : Instr → List Mode
  | .add m1 m2 m3 => [m1, m2, m3]
  | .mul m1 m2 m3 => [m1, m2, m3]
  | .input m1 => [m1]
  | .output m1 => [m1]
  | .jumpIfTrue m1 m2 => [m1, m2]
  | .jumpIfFalse m1 m2 => [m1, m2]
  | .lessThan m1 m2 m3 => [m1, m2, m3]
  | .equals m1 m2 m3 => [m1, m2, m3]
  | .adjustRelativeBase m1 => [m1]
  | .halt => []

/-- The parameter counts of the ten opcodes (R83); `none` for an opcode without a meaning. -/
def nparamsOf : Nat → Option Nat
  | 1 => some 3
  | 2 => some 3
  | 3 => some 1
  | 4 => some 1
  | 5 => some 2
  | 6 => some 2
  | 7 => some 3
  | 8 => some 3
  | 9 => some 1
  | 99 => some 0
  | _ => none

/-- `nparams` (R83). -/
def Instr.nparams (i : Instr) : Nat := i.modes.length

/-- `width`, in cells: the instruction cell and its parameters (R83, R89). -/
def Instr.width (i : Instr) : Nat := 1 + i.nparams

/-- `encode(op, m1, m2, m3) = op + 100*m1 + 1000*m2 + 10000*m3`, the digits of absent parameters 0 (R97). -/
def encode : Instr → Int
  | .add m1 m2 m3 => 1 + 100 * m1.digit + 1000 * m2.digit + 10000 * m3.digit
  | .mul m1 m2 m3 => 2 + 100 * m1.digit + 1000 * m2.digit + 10000 * m3.digit
  | .input m1 => 3 + 100 * m1.digit
  | .output m1 => 4 + 100 * m1.digit
  | .jumpIfTrue m1 m2 => 5 + 100 * m1.digit + 1000 * m2.digit
  | .jumpIfFalse m1 m2 => 6 + 100 * m1.digit + 1000 * m2.digit
  | .lessThan m1 m2 m3 => 7 + 100 * m1.digit + 1000 * m2.digit + 10000 * m3.digit
  | .equals m1 m2 m3 => 8 + 100 * m1.digit + 1000 * m2.digit + 10000 * m3.digit
  | .adjustRelativeBase m1 => 9 + 100 * m1.digit
  | .halt => 99

/-- Cell `k` of the instruction whose bits are the low `nbits` bits of `w`, its first cell in the low `W` bits: a `W`-bit
two's-complement integer. The machine has no such reading (R57): only the host's two hooks, `decodeTableWord` and
`State.withFetchWord`, use it. DESIGN CHOICE, safe (log 5). -/
def cellOfBits (nbits w k : Nat) : Int :=
  match Config.cellWidth with
  | some n =>
    let u := (w >>> (n * k)) % 2 ^ min n (nbits - n * k)
    if u < 2 ^ (n - 1) then (u : Int) else (u : Int) - ((2 ^ n : Nat) : Int)
  | none => if k = 0 then ((w % 2 ^ nbits : Nat) : Int) else 0

/-- What the decoder reads from the instruction whose bits are the low `nbits` bits of `w` (log 5). -/
def decodeTableWord (nbits w : Nat) : Option Instr :=
  match decode (cellOfBits nbits w 0) with
  | .ok i => some i
  | .error _ => none

end Sys2Proof
end

