-- ==== Sys2Proof/Machine/State.lean ====
section
/-! DEFINITION. The state of one core, as plain data: the seven elements of 10_state.md R37, which R41 calls complete,
and the ways a step of the model can stop. -/

namespace Sys2Proof.Machine

/-- The memory: the cells that are not 0, by strictly rising address (`Mem.wf`). An unlisted address reads 0
(10_state.md R28), so equal memories are equal lists (20_memory.md R68). Whole cells, never bytes (R57; DEDUCED, safe, log 1). -/
abbrev Mem := List (Nat × Int)

/-- The run state of the core (R32). -/
inductive Status where
  | ready
  | halted
  | faulted
deriving DecidableEq, Repr

structure State where
  /-- The program counter: the address of the next instruction cell (R21). -/
  pc : Nat
  /-- The relative base, signed (R24). -/
  rb : Int
  /-- The memory (R27). -/
  mem : Mem
  /-- The input queue, oldest value first (R30). -/
  inq : List Int
  /-- The output stream, oldest value first (R31). -/
  out : List Int
  /-- The run state (R32). -/
  status : Status
  /-- Why the core is Faulted, `none` while it is not (R33). -/
  cause : Option FaultCause
deriving DecidableEq, Repr

/-- The state right after reset: construction from the empty program image (R37, R230, R231; DESIGN CHOICE, safe, log 4). -/
def State.reset : State :=
  { pc := 0, rb := 0, mem := [], inq := [], out := [], status := .ready, cause := none }

/-- Stops of the model itself. A fault of the CORE is none of these: it is a next state (60_exceptions.md R198; DEDUCED, safe, log 6). -/
inductive Fault where
  /-- Raised by `dstAddr` on the mode Immediate, which 40_engine.md R112 calls unreachable: the decoder has already raised
  InvalidDestinationMode. No `step` ends in it. Safe. -/
  | immediateDestination
deriving DecidableEq, Repr

/-- Invocations and instructions the model gives no transition. -/
inductive Refusal where
  /-- Raised by `exec` for an instruction that has no meaning yet. Safe. -/
  | notModelled (mnemonic : String)
  /-- Raised by `step` and the host's `step()` on a Halted core, "a caller error (undefined/must not be relied upon)"
  (40_engine.md R132, U1, D18). Safe. -/
  | stepWhenHalted
  /-- Raised by `step` and the host's `step()` on a Faulted core (R132, U5, D18). Safe. -/
  | stepWhenFaulted
deriving DecidableEq, Repr

end Sys2Proof.Machine
end

