-- ==== Sys2Proof/Machine/Ops.lean ====
section
/-! DEFINITION. The named operations over the state: the range checks, the memory, an instruction's updates and
their commit, and taking a fault. There is no return from a fault (60_exceptions.md R200). -/

namespace Sys2Proof.Machine

/-- Whether `n` is within a bound, `none` being `inf` (00_scope.md R8, R9, R10). -/
def withinBound (bound : Option Nat) (n : Nat) : Bool :=
  match bound with
  | some b => decide (n ≤ b)
  | none => true

/-- `CELL_MIN <= v <= CELL_MAX` for a cell width (R8); with width `inf` it never fails. A negative `v = -(n + 1)` is at
least `CELL_MIN = -(CELL_MAX + 1)` exactly when `n <= CELL_MAX`. Written by the sign of `v`, so that no proof computes with the
bound's digits; `fitsCellOf_iff` says it as the inequality. -/
def fitsCellOf (w : Option Nat) : Int → Bool
  | .ofNat n => withinBound (Config.cellMaxOf w) n
  | .negSucc n => withinBound (Config.cellMaxOf w) n

/-- `fits_cell(v)` of this hardware (R15). -/
def fitsCell (v : Int) : Bool := fitsCellOf Config.cellWidth v

/-- `is_addr(a)`: `0 <= a <= ADDR_MAX` (R15). -/
def isAddr : Int → Bool
  | .ofNat n => withinBound Config.addrMax n
  | .negSucc _ => false

/-! ### The memory (20_memory.md) -/

/-- The canonical form: strictly rising addresses, no listed 0. -/
abbrev Mem.wf (m : Mem) : Prop :=
  m.Pairwise (fun x y => x.1 < y.1) ∧ ∀ c ∈ m, c.2 ≠ 0

/-- `Mem[a]`: an address nothing has written reads 0 (R50, R52). -/
def Mem.read : Mem → Nat → Int
  | [], _ => 0
  | (b, w) :: m, a => if a = b then w else Mem.read m a

/-- The memory without an entry for `a`. -/
def Mem.erase (m : Mem) (a : Nat) : Mem := m.filter fun c => c.1 != a

/-- The entry `(a, v)` put before the first entry of a higher address. -/
def Mem.insert : Mem → Nat → Int → Mem
  | [], a, v => [(a, v)]
  | (b, w) :: m, a, v => if a < b then (a, v) :: (b, w) :: m else (b, w) :: Mem.insert m a v

/-- `Mem with [a := v]`: changes one cell (R53); writing 0 leaves the address unlisted, which reads the same (R68). -/
def Mem.write (m : Mem) (a : Nat) (v : Int) : Mem :=
  if v = 0 then Mem.erase m a else Mem.insert (Mem.erase m a) a v

/-- The memory that holds the image `P` from address `a` on and 0 elsewhere (R61; 70_reset_and_hazards.md R230). -/
def Mem.load (a : Nat) : List Int → Mem
  | [] => []
  | v :: vs => if v = 0 then Mem.load (a + 1) vs else (a, v) :: Mem.load (a + 1) vs

/-- `MemRead(a, 1)` for an integer `a` (R52). -/
def memRead (s : State) (a : Int) : Except FaultCause Int :=
  if isAddr a then .ok (s.mem.read a.toNat) else .error (.invalidAddress a)

/-! ### Results and updates of one instruction cycle (40_engine.md R118, R119) -/

/-- How an instruction cycle ends (R118). -/
inductive Result where
  /-- `Continue`: a silent instruction committed; never seen by the host. -/
  | continue
  /-- `Output(v)`: an Output instruction committed. -/
  | output (v : Int)
  /-- `NeedMoreInput`: an Input instruction found the queue empty. -/
  | needMoreInput
  /-- `Halt`: opcode 99 was reached. -/
  | halt
  /-- `Fault(code, info)`. -/
  | fault (c : FaultCause)
deriving DecidableEq, Repr

/-- `U`, what an instruction's `execute` computes without changing state (R119, phase 4). -/
structure Update where
  result : Result
  nextPc : Option Int := none
  memWrite : Option (Nat × Int) := none
  newRb : Option Int := none
  popInput : Bool := false
  pushOutput : Option Int := none
  halt : Bool := false
deriving DecidableEq, Repr

/-- Why a cycle ends before its commit: a fault of the core, or the model's own stop. -/
inductive Abort where
  | raised (c : FaultCause)
  | stuck (f : Fault)
deriving DecidableEq, Repr

/-- The check of a new cell value, in phase 5 of R119: an exact result that is no cell raises ArithmeticOverflow (R142). -/
def checkCell : Option Int → Except FaultCause Unit
  | none => .ok ()
  | some v => if fitsCell v then .ok () else .error (.arithmeticOverflow v)

/-- The check of the next `pc`, in phase 5 of R119: no wrap-around, no negative target (10_state.md R23; 43_jumps.md R162). -/
def checkNextPc : Option Int → Except FaultCause Unit
  | none => .ok ()
  | some a => if isAddr a then .ok () else .error (.invalidAddress a)

/-- The checks of phase 5, in their order (R119, R199). -/
def checkUpdate (u : Update) : Except FaultCause Unit := do
  checkCell (u.memWrite.map (·.2))
  checkCell u.newRb
  checkNextPc u.nextPc

/-- `commit(U)`: all updates as one change of state (R120). -/
def commit (u : Update) (s : State) : State :=
  { s with
    mem := match u.memWrite with | some (a, v) => s.mem.write a v | none => s.mem
    inq := if u.popInput then s.inq.tail else s.inq
    out := match u.pushOutput with | some v => s.out ++ [v] | none => s.out
    rb := match u.newRb with | some v => v | none => s.rb
    pc := match u.nextPc with | some t => t.toNat | none => s.pc
    status := if u.halt then .halted else s.status }

/-! ### Taking a fault -/

/-- `fault_entry(F, info)` (60_exceptions.md R198): the core stops with the cause recorded; nothing else changes and control
goes to no handler. Every fault of the core is taken here. -/
def faultEntry (c : FaultCause) (s : State) : State :=
  { s with status := .faulted, cause := some c }

/-- The end of a cycle (R119, phases 3 to 5): a fault is taken; `NeedMoreInput` changes nothing (42_io.md R151); otherwise the
checks are made and the updates committed. -/
def settle (s : State) (x : Except Abort Update) : Host.Outcome (Result × State) Fault Refusal :=
  match x with
  | .error (.raised c) => .next (.fault c, faultEntry c s)
  | .error (.stuck f) => .fault f
  | .ok u =>
    if u.result = .needMoreInput then .next (.needMoreInput, s)
    else match checkUpdate u with
      | .error c => .next (.fault c, faultEntry c s)
      | .ok () => .next (u.result, commit u s)

/-- A cycle's outcome without its result: what `exec` answers (DEDUCED, safe, log 7). -/
def stateOf (o : Host.Outcome (Result × State) Fault Refusal) : Host.Outcome State Fault Refusal :=
  match o with
  | .next (_, t) => .next t
  | .fault f => .fault f
  | .refused r => .refused r

/-! ### Numeric codes (10_state.md R34; 60_exceptions.md R191) -/

/-- The suggested code of a status (R34). -/
def Status.code : Status → Nat
  | .ready => 0
  | .halted => 1
  | .faulted => 2

/-- The code of `cause`: 0 for `none`, else the fault code of R191. -/
def causeCode : Option FaultCause → Nat
  | none => 0
  | some (.invalidOpcode _) => 1
  | some (.invalidParameterMode _ _ _) => 2
  | some (.invalidDestinationMode _ _) => 3
  | some (.invalidAddress _) => 4
  | some (.arithmeticOverflow _) => 5

end Sys2Proof.Machine
end

