-- ==== Sys2Proof/Machine/Operands.lean ====
section
/-! DEFINITION. The operand resolver: both operand roles in every addressing mode (40_engine.md section 2), and the fetch of
the parameters in their order (R113). -/

namespace Sys2Proof.Machine

/-- `src_value(p, mode)` (R111). The sum `p + rb` is exact and is range-checked as an address. -/
def srcValue (s : State) (p : Int) : Mode → Except FaultCause Int
  | .position => memRead s p
  | .immediate => .ok p
  | .relative => memRead s (p + s.rb)

/-- An integer used as an address, or InvalidAddress (20_memory.md R55). -/
def asAddr (a : Int) : Except Abort Nat :=
  if isAddr a then .ok a.toNat else .error (.raised (.invalidAddress a))

/-- `dst_addr(p, mode)` (R112); Immediate is unreachable there, and stuck here. -/
def dstAddr (s : State) (p : Int) : Mode → Except Abort Nat
  | .position => asAddr p
  | .immediate => .error (.stuck .immediateDestination)
  | .relative => asAddr (p + s.rb)

/-- A fault of the core, as a reason to end the cycle. -/
def raising {α : Type} : Except FaultCause α → Except Abort α
  | .ok a => .ok a
  | .error c => .error (.raised c)

/-- The raw parameter `i`, the cell at `pc + i` (30_encoding.md R81); above `ADDR_MAX` it raises InvalidAddress (R119). -/
def param (s : State) (i : Nat) : Except FaultCause Int := memRead s (s.pc + i)

/-- Parameter `i` as a source: fetched, then resolved (R113). -/
def srcOperand (s : State) (i : Nat) (m : Mode) : Except Abort Int := do
  let p ← raising (param s i)
  raising (srcValue s p m)

/-- Parameter `i` as a destination: fetched, then resolved (R113). -/
def dstOperand (s : State) (i : Nat) (m : Mode) : Except Abort Nat := do
  let p ← raising (param s i)
  dstAddr s p m

/-- The operands of format SSD, in ascending order; the first fault ends the cycle (R113). -/
def operandsSSD (s : State) (m1 m2 m3 : Mode) : Except Abort (Int × Int × Nat) := do
  let a ← srcOperand s 1 m1
  let b ← srcOperand s 2 m2
  let d ← dstOperand s 3 m3
  return (a, b, d)

/-- The operands of format SS; both are resolved whether or not a jump is taken (R113). -/
def operandsSS (s : State) (m1 m2 : Mode) : Except Abort (Int × Int) := do
  let a ← srcOperand s 1 m1
  let b ← srcOperand s 2 m2
  return (a, b)

end Sys2Proof.Machine
end

