-- ==== Sys2Proof/Machine/Arithmetic.lean ====
section
/-! DEFINITION. Add and Multiply (41_arithmetic.md). -/

namespace Sys2Proof.Machine

/-- `execute(ADD, o_1, o_2, o_3)`: the exact sum (R140). -/
def addUpdate (a b : Int) (d : Nat) (pc : Nat) : Update :=
  { result := .continue, memWrite := some (d, a + b), nextPc := some (pc + 4) }

/-- The cycle of an ADD up to its commit. -/
def addCycle (m1 m2 m3 : Mode) (s : State) : Except Abort Update := do
  let (a, b, d) ← operandsSSD s m1 m2 m3
  return addUpdate a b d s.pc

/-- `ADD a, b, dest` (R140). -/
def execAdd (m1 m2 m3 : Mode) (s : State) : Host.Outcome State Fault Refusal :=
  stateOf (settle s (addCycle m1 m2 m3 s))

/-- `execute(MUL, o_1, o_2, o_3)`: the exact product (R141). -/
def mulUpdate (a b : Int) (d : Nat) (pc : Nat) : Update :=
  { result := .continue, memWrite := some (d, a * b), nextPc := some (pc + 4) }

/-- The cycle of a MUL up to its commit. -/
def mulCycle (m1 m2 m3 : Mode) (s : State) : Except Abort Update := do
  let (a, b, d) ← operandsSSD s m1 m2 m3
  return mulUpdate a b d s.pc

/-- `MUL a, b, dest` (R141). -/
def execMul (m1 m2 m3 : Mode) (s : State) : Host.Outcome State Fault Refusal :=
  stateOf (settle s (mulCycle m1 m2 m3 s))

end Sys2Proof.Machine
end

