-- ==== Sys2Proof/Machine/Flags.lean ====
section
/-! DEFINITION. The core has no flags (10_state.md R26): a comparison writes its outcome to a cell and a jump tests a cell
against zero. These are the three tests. -/

namespace Sys2Proof.Machine

/-- The cell a comparison writes: 1 or 0 (44_compare.md R170, R171). -/
def outcomeCell (b : Bool) : Int := if b then 1 else 0

/-- `a < b` of the signed integers the cells hold (R172). -/
def isLess (a b : Int) : Bool := decide (a < b)

/-- `a = b` of the whole values (R171). -/
def isEqual (a b : Int) : Bool := decide (a = b)

/-- `cond != 0`: every value but 0 is true, negative ones included (43_jumps.md R160). -/
def isNonZero (cond : Int) : Bool := decide (cond ≠ 0)

end Sys2Proof.Machine
end

