-- ==== Sys2Proof/Machine/Compare.lean ====
section
/-! DEFINITION. LessThan and Equals (44_compare.md). -/

namespace Sys2Proof.Machine

/-- `execute(LT, o_1, o_2, o_3)` (R170). -/
def lessThanUpdate (a b : Int) (d : Nat) (pc : Nat) : Update :=
  { result := .continue, memWrite := some (d, outcomeCell (isLess a b)), nextPc := some (pc + 4) }

/-- The cycle of an LT up to its commit. -/
def lessThanCycle (m1 m2 m3 : Mode) (s : State) : Except Abort Update := do
  let (a, b, d) ← operandsSSD s m1 m2 m3
  return lessThanUpdate a b d s.pc

/-- `LT a, b, dest` (R170). -/
def execLessThan (m1 m2 m3 : Mode) (s : State) : Host.Outcome State Fault Refusal :=
  stateOf (settle s (lessThanCycle m1 m2 m3 s))

/-- `execute(EQ, o_1, o_2, o_3)` (R171). -/
def equalsUpdate (a b : Int) (d : Nat) (pc : Nat) : Update :=
  { result := .continue, memWrite := some (d, outcomeCell (isEqual a b)), nextPc := some (pc + 4) }

/-- The cycle of an EQ up to its commit. -/
def equalsCycle (m1 m2 m3 : Mode) (s : State) : Except Abort Update := do
  let (a, b, d) ← operandsSSD s m1 m2 m3
  return equalsUpdate a b d s.pc

/-- `EQ a, b, dest` (R171). -/
def execEquals (m1 m2 m3 : Mode) (s : State) : Host.Outcome State Fault Refusal :=
  stateOf (settle s (equalsCycle m1 m2 m3 s))

end Sys2Proof.Machine
end

