-- ==== Sys2Proof/Machine/Halt.lean ====
section
/-! DEFINITION. Halt (46_halt.md). -/

namespace Sys2Proof.Machine

/-- `execute(HLT)`: no next `pc`, so `pc` keeps the address of the cell holding 99 (R185, D13). -/
def haltUpdate : Update := { result := .halt, halt := true }

/-- The cycle of an HLT up to its commit: no parameter is fetched (R185). -/
def haltCycle : Except Abort Update := .ok haltUpdate

/-- `HLT` (R185). -/
def execHalt (s : State) : Host.Outcome State Fault Refusal :=
  stateOf (settle s haltCycle)

end Sys2Proof.Machine
end

