-- ==== Sys2Proof/Machine/InputOutput.lean ====
section
/-! DEFINITION. Input and Output (42_io.md). -/

namespace Sys2Proof.Machine

/-- `execute(IN, o_1)`: the oldest queued value, or NeedMoreInput (R150, R151). -/
def inputUpdate (d : Nat) (inq : List Int) (pc : Nat) : Update :=
  match inq with
  | [] => { result := .needMoreInput }
  | v :: _ => { result := .continue, memWrite := some (d, v), popInput := true, nextPc := some (pc + 2) }

/-- The cycle of an IN up to its commit; the queue is tested after the destination is resolved (R151, D29). -/
def inputCycle (m1 : Mode) (s : State) : Except Abort Update := do
  let d ← dstOperand s 1 m1
  return inputUpdate d s.inq s.pc

/-- `IN dest` (R150, R151). -/
def execInput (m1 : Mode) (s : State) : Host.Outcome State Fault Refusal :=
  stateOf (settle s (inputCycle m1 s))

/-- `execute(OUT, o_1)` (R152). -/
def outputUpdate (a : Int) (pc : Nat) : Update :=
  { result := .output a, pushOutput := some a, nextPc := some (pc + 2) }

/-- The cycle of an OUT up to its commit. -/
def outputCycle (m1 : Mode) (s : State) : Except Abort Update := do
  let a ← srcOperand s 1 m1
  return outputUpdate a s.pc

/-- `OUT a` (R152). -/
def execOutput (m1 : Mode) (s : State) : Host.Outcome State Fault Refusal :=
  stateOf (settle s (outputCycle m1 s))

end Sys2Proof.Machine
end

