-- ==== Sys2Proof/Machine/Jumps.lean ====
section
/-! DEFINITION. JumpIfTrue and JumpIfFalse (43_jumps.md). A taken jump assigns `pc` the target value itself, absolute
(R162); there is no delay slot (R163). -/

namespace Sys2Proof.Machine

/-- `execute(JT, o_1, o_2)` (R160). -/
def jumpIfTrueUpdate (cond target : Int) (pc : Nat) : Update :=
  { result := .continue, nextPc := some (if isNonZero cond then target else pc + 3) }

/-- The cycle of a JT up to its commit. -/
def jumpIfTrueCycle (m1 m2 : Mode) (s : State) : Except Abort Update := do
  let (cond, target) ← operandsSS s m1 m2
  return jumpIfTrueUpdate cond target s.pc

/-- `JT cond, target` (R160). -/
def execJumpIfTrue (m1 m2 : Mode) (s : State) : Host.Outcome State Fault Refusal :=
  stateOf (settle s (jumpIfTrueCycle m1 m2 s))

/-- `execute(JF, o_1, o_2)` (R161). -/
def jumpIfFalseUpdate (cond target : Int) (pc : Nat) : Update :=
  { result := .continue, nextPc := some (if isNonZero cond then pc + 3 else target) }

/-- The cycle of a JF up to its commit. -/
def jumpIfFalseCycle (m1 m2 : Mode) (s : State) : Except Abort Update := do
  let (cond, target) ← operandsSS s m1 m2
  return jumpIfFalseUpdate cond target s.pc

/-- `JF cond, target` (R161). -/
def execJumpIfFalse (m1 m2 : Mode) (s : State) : Host.Outcome State Fault Refusal :=
  stateOf (settle s (jumpIfFalseCycle m1 m2 s))

end Sys2Proof.Machine
end

