-- ==== Sys2Proof/Machine/RelativeBase.lean ====
section
/-! DEFINITION. AdjustRelativeBase (45_relbase.md). -/

namespace Sys2Proof.Machine

/-- `execute(ARB, o_1)`: the exact sum of the old base and the operand (R180). -/
def adjustRelativeBaseUpdate (a : Int) (rb : Int) (pc : Nat) : Update :=
  { result := .continue, newRb := some (rb + a), nextPc := some (pc + 2) }

/-- The cycle of an ARB up to its commit; its operand is resolved with the old base (R181). -/
def adjustRelativeBaseCycle (m1 : Mode) (s : State) : Except Abort Update := do
  let a ← srcOperand s 1 m1
  return adjustRelativeBaseUpdate a s.rb s.pc

/-- `ARB a` (R180). -/
def execAdjustRelativeBase (m1 : Mode) (s : State) : Host.Outcome State Fault Refusal :=
  stateOf (settle s (adjustRelativeBaseCycle m1 s))

end Sys2Proof.Machine
end

