-- ==== Sys2Proof/Machine/Cycle.lean ====
section
/-! DEFINITION. The instruction cycle with its result (40_engine.md R116 to R119): what the host's operations are built
from. `Machine.step` is the same cycle without the result (log 7). -/

namespace Sys2Proof.Machine

/-- Phases 1 and 2: fetch the instruction cell at `pc` and decode it (R119; 30_encoding.md R88). The fetch is `MemRead`
(20_memory.md R52), so it is total (DEDUCED, safe, log 8). -/
def fetchDecode (s : State) : Except FaultCause Instr :=
  match memRead s s.pc with
  | .error c => .error c
  | .ok v => decode v

/-- Phases 3 and 4 of the decoded instruction (R119). -/
def instrCycle (i : Instr) (s : State) : Except Abort Update :=
  match i with
  | .add m1 m2 m3 => addCycle m1 m2 m3 s
  | .mul m1 m2 m3 => mulCycle m1 m2 m3 s
  | .input m1 => inputCycle m1 s
  | .output m1 => outputCycle m1 s
  | .jumpIfTrue m1 m2 => jumpIfTrueCycle m1 m2 s
  | .jumpIfFalse m1 m2 => jumpIfFalseCycle m1 m2 s
  | .lessThan m1 m2 m3 => lessThanCycle m1 m2 m3 s
  | .equals m1 m2 m3 => equalsCycle m1 m2 m3 s
  | .adjustRelativeBase m1 => adjustRelativeBaseCycle m1 s
  | .halt => haltCycle

/-- `cycle()` (R119). A core that is not Ready executes nothing: the invocation is refused (R117, R132). -/
def cycle (s : State) : Host.Outcome (Result × State) Fault Refusal :=
  match s.status with
  | .halted => .refused .stepWhenHalted
  | .faulted => .refused .stepWhenFaulted
  | .ready =>
    match fetchDecode s with
    | .error c => .next (.fault c, faultEntry c s)
    | .ok i => settle s (instrCycle i s)

/-- Four cells of the program image stored from `pc` on, where they are addresses (for `State.withFetchWord`). -/
def storeCells (m : Mem) (a : Nat) : List Int → Mem
  | [] => m
  | v :: vs => storeCells (if isAddr a then m.write a v else m) (a + 1) vs

end Sys2Proof.Machine
end

