-- ==== Sys2Proof/Machine/Dispatch.lean ====
section
/-! DEFINITION. One arm per instruction. -/

namespace Sys2Proof.Machine

/-- The instruction at `pc`, on a Ready core (phases 3 to 5 of 40_engine.md R119; DESIGN CHOICE, unsafe, log 9). -/
def exec (i : Instr) (s : State) : Host.Outcome State Fault Refusal :=
  match i with
  | .add m1 m2 m3 => Sys2Proof.Machine.execAdd m1 m2 m3 s
  | .mul m1 m2 m3 => Sys2Proof.Machine.execMul m1 m2 m3 s
  | .input m1 => Sys2Proof.Machine.execInput m1 s
  | .output m1 => Sys2Proof.Machine.execOutput m1 s
  | .jumpIfTrue m1 m2 => Sys2Proof.Machine.execJumpIfTrue m1 m2 s
  | .jumpIfFalse m1 m2 => Sys2Proof.Machine.execJumpIfFalse m1 m2 s
  | .lessThan m1 m2 m3 => Sys2Proof.Machine.execLessThan m1 m2 m3 s
  | .equals m1 m2 m3 => Sys2Proof.Machine.execEquals m1 m2 m3 s
  | .adjustRelativeBase m1 => Sys2Proof.Machine.execAdjustRelativeBase m1 s
  | .halt => Sys2Proof.Machine.execHalt s

end Sys2Proof.Machine
end

