-- ==== Sys2Proof/Machine/Step.lean ====
section
/-! DEFINITION. One step of the model is one instruction cycle (40_engine.md R119, C4; DEDUCED, safe, log 3). The host-visible `step()` of
R124 runs such cycles and stands in Machine/HostOps.lean. -/

namespace Sys2Proof.Machine

/-- One instruction cycle: on a Ready core the cell at `pc` is fetched and decoded, a decode fault is taken, and an instruction
is executed; a core that is not Ready is refused (R117, R119, R132). -/
def step (s : State) : Host.Outcome State Fault Refusal :=
  match s.status with
  | .halted => .refused .stepWhenHalted
  | .faulted => .refused .stepWhenFaulted
  | .ready =>
    match fetchDecode s with
    | .error c => .next (faultEntry c s)
    | .ok i => exec i s

/-- The state in which the next step runs the instruction whose bits are the low `nbits` bits of `w`: its cells stand at `pc` and
after, and the core is Ready. It stands for the program a host supplies at construction (DESIGN CHOICE, log 4, log 5). -/
def State.withFetchWord (s : State) (nbits w : Nat) : State :=
  { s with
    mem := storeCells s.mem s.pc ((List.range 4).map (cellOfBits nbits w))
    status := .ready
    cause := none }

end Sys2Proof.Machine
end

