-- ==== Sys2Proof/Machine/HostOps.lean ====
section
/-! DEFINITION. What the host can do to a core (40_engine.md sections 4 and 5; 70_reset_and_hazards.md R230). An argument that
the host cannot present (a value that is no cell, an address that is none) gets the answer `none` (DEDUCED, safe, log 11). Copying a
core is copying the `State` (R41). There is no other operation (R131). -/

namespace Sys2Proof.Machine

/-- `construct(P)` (R230): `none` where `P` is no program image, that is where a value is no cell or there are more cells than addresses.
It executes and decodes nothing. -/
def construct (P : List Int) : Option State :=
  if P.all fitsCell && (P.isEmpty || isAddr ((P.length : Int) - 1)) then
    some { State.reset with mem := Mem.load 0 P }
  else none

/-- `enqueue_input(v)` (R126), in every status (D19): appends at the tail and changes nothing else. -/
def enqueueInput (v : Int) (s : State) : Option State :=
  if fitsCell v then some { s with inq := s.inq ++ [v] } else none

/-- `read_memory(a)` (R127), in every status: the cell at `a`; no state changes. -/
def readMemory (a : Nat) (s : State) : Option Int :=
  if isAddr a then some (s.mem.read a) else none

/-- Reading the output (R129): the log itself; no state changes. -/
def readOutput (s : State) : List Int := s.out

/-! ### `step()` and `run_until_blocked()` as relations -/

/-- `StepReturns s r t`: `step()` on `s` returns `r` and leaves `t` (R124): silent cycles, then one whose result is visible. There
is no result where the silent cycles never end (R125, U8) and none on a core that is not Ready (R132). -/
inductive StepReturns : State → Result → State → Prop
  | visible {s t : State} {r : Result} :
      cycle s = .next (r, t) → r ≠ .continue → StepReturns s r t
  | silent {s s' t : State} {r : Result} :
      cycle s = .next (.continue, s') → StepReturns s' r t → StepReturns s r t

/-- `RunReturns s vs r t`: `run_until_blocked()` on `s` returns `(vs, r)` and leaves `t` (R128, D30): a composite of `step()`. -/
inductive RunReturns : State → List Int → Result → State → Prop
  | blocked {s t : State} {r : Result} :
      StepReturns s r t → (∀ v, r ≠ .output v) → RunReturns s [] r t
  | output {s s' t : State} {v : Int} {vs : List Int} {r : Result} :
      StepReturns s (.output v) s' → RunReturns s' vs r t → RunReturns s (v :: vs) r t

/-! ### The same as functions, under fuel (R125) -/

/-- `step()` with at most `fuel` cycles; `none` is "out of fuel", which is no step result (U8). -/
def stepFuel : Nat → State → Host.Outcome (Option (Result × State)) Fault Refusal
  | 0, _ => .next none
  | n + 1, s =>
    match cycle s with
    | .next (.continue, s') => stepFuel n s'
    | .next (r, t) => .next (some (r, t))
    | .fault f => .fault f
    | .refused r => .refused r

/-- `run_until_blocked()` with at most `fuel` cycles in all; `none` is "out of fuel". -/
def runFuel : Nat → State → Host.Outcome (Option (List Int × Result × State)) Fault Refusal
  | 0, _ => .next none
  | n + 1, s =>
    match cycle s with
    | .next (.continue, s') => runFuel n s'
    | .next (.output v, s') =>
      match runFuel n s' with
      | .next (some (vs, r, t)) => .next (some (v :: vs, r, t))
      | o => o
    | .next (r, t) => .next (some ([], r, t))
    | .fault f => .fault f
    | .refused r => .refused r

/-- The states a host can bring a core into: construction, then input and cycles in any order. Input between any two cycles admits
every run the spec admits, and more (R130, D17; DESIGN CHOICE, safe, log 12). -/
inductive Reachable : State → Prop
  | construct {P : List Int} {s : State} : construct P = some s → Reachable s
  | enqueue {s t : State} {v : Int} : Reachable s → enqueueInput v s = some t → Reachable t
  | cycle {s t : State} {r : Result} : Reachable s → cycle s = .next (r, t) → Reachable t

end Sys2Proof.Machine
end

