-- ==== Sys2Proof/Machine/Loader.lean ====
section
/-! DEFINITION. The program-text loader in front of the core (70_reset_and_hazards.md section 2), on a text as the list of its
characters. -/

namespace Sys2Proof.Machine

/-- Why no core is made from a text. -/
inductive LoadError where
  /-- `ParseError`: "program text contains a non-integer token" (R235; 60_exceptions.md R197). -/
  | parseError
  /-- The image has more cells than there are addresses (R230: `N - 1 <= ADDR_MAX`). -/
  | imageTooLong
deriving DecidableEq, Repr

/-- The characters of `trailing` (R234): space, TAB, CR, LF. -/
def isTrailing (c : Char) : Bool := c == ' ' || c == '\t' || c == '\r' || c == '\n'

/-- The value of a decimal digit. -/
def digitValue (c : Char) : Option Nat :=
  if '0' ≤ c && c ≤ '9' then some (c.toNat - '0'.toNat) else none

/-- The value of a numeral whose digits so far have the value `acc`, most significant digit first (R234). -/
def parseDigits (acc : Nat) : List Char → Option Nat
  | [] => some acc
  | c :: cs =>
    match digitValue c with
    | some d => parseDigits (10 * acc + d) cs
    | none => none

/-- At least one digit and nothing else. -/
def parseNumeral : List Char → Option Nat
  | [] => none
  | cs => parseDigits 0 cs

/-- A decimal integer, optionally with a leading `-`. -/
def parseInteger : List Char → Option Int
  | '-' :: cs => (parseNumeral cs).map fun (n : Nat) => -(n : Int)
  | cs => (parseNumeral cs).map fun (n : Nat) => (n : Int)

/-- A token: an integer that is a cell (R234, R235). -/
def parseToken (cs : List Char) : Option Int :=
  match parseInteger cs with
  | some v => if fitsCell v then some v else none
  | none => none

/-- The text cut at a separator: always at least one piece. -/
def splitAt (sep : Char) : List Char → List (List Char)
  | [] => [[]]
  | c :: cs =>
    if c = sep then [] :: splitAt sep cs
    else match splitAt sep cs with
      | t :: ts => (c :: t) :: ts
      | [] => [[c]]

/-- The text without its trailing blanks (R234). -/
def dropTrailing (cs : List Char) : List Char := (cs.reverse.dropWhile isTrailing).reverse

/-- All the tokens, or `none` at the first that is none. -/
def parseTokens : List (List Char) → Option (List Int)
  | [] => some []
  | t :: ts =>
    match parseToken t, parseTokens ts with
    | some v, some vs => some (v :: vs)
    | _, _ => none

/-- `parse(t)` (R234, R235). -/
def parse (t : List Char) : Except LoadError (List Int) :=
  match parseTokens (splitAt ',' (dropTrailing t)) with
  | some P => .ok P
  | none => .error .parseError

/-- `construct_text(t)` (R233). -/
def constructText (t : List Char) : Except LoadError State :=
  match parse t with
  | .error e => .error e
  | .ok P =>
    match construct P with
    | some s => .ok s
    | none => .error .imageTooLong

/-! ### The grammar of R234, as a relation between a text and its image -/

/-- The value of a string of digits, most significant first. -/
def numeralValue (ds : List Char) : Nat := ds.foldl (fun n c => 10 * n + (c.toNat - '0'.toNat)) 0

/-- `token := [ "-" ] digit digit*`, with its value. -/
inductive TokenText : List Char → Int → Prop
  | plain {ds : List Char} : ds ≠ [] → (∀ c ∈ ds, '0' ≤ c ∧ c ≤ '9') → TokenText ds (numeralValue ds)
  | negated {ds : List Char} :
      ds ≠ [] → (∀ c ∈ ds, '0' ≤ c ∧ c ≤ '9') → TokenText ('-' :: ds) (-(numeralValue ds : Int))

/-- `text := token ( "," token )* trailing`, every token's value a cell (R234, R235). -/
inductive ProgramText : List Char → List Int → Prop
  | last {tok blanks : List Char} {v : Int} :
      TokenText tok v → fitsCell v = true → (∀ c ∈ blanks, c ∈ [' ', '\t', '\r', '\n']) →
      ProgramText (tok ++ blanks) [v]
  | more {tok rest : List Char} {v : Int} {vs : List Int} :
      TokenText tok v → fitsCell v = true → ProgramText rest vs →
      ProgramText (tok ++ ',' :: rest) (v :: vs)

end Sys2Proof.Machine
end

