-- ==== Sys2Proof/Machine/Assembler.lean ====
section
/-! DEFINITION. The assembly notation of 30_encoding.md section 5 (R98 to R100): lines, operands and labels, an assembler into the
list of cells, which is the normative form of a program, and the reading of its text. What the rules leave open of
the text is DESIGN CHOICE, unsafe, log 10. -/

namespace Sys2Proof.Machine

/-- `k`: a decimal integer or a label (R99). -/
inductive AsmConst where
  | literal (k : Int)
  | label (name : List Char)
deriving DecidableEq, Repr

/-- `[k]`, `#k`, `[rb+k]`, `[rb-k]` (R99). -/
inductive AsmOperand where
  | position (k : AsmConst)
  | immediate (k : AsmConst)
  | relativePlus (k : AsmConst)
  | relativeMinus (k : AsmConst)
deriving DecidableEq, Repr

/-- A line: `name:`, an instruction, or `DATA k1, k2, ...` (R99). -/
inductive AsmLine where
  | label (name : List Char)
  | instr (mnemonic : List Char) (operands : List AsmOperand)
  | data (ks : List AsmConst)
deriving DecidableEq, Repr

/-- The short mnemonic (R98). -/
def Instr.mnemonic : Instr → String
  | .add _ _ _ => "ADD"
  | .mul _ _ _ => "MUL"
  | .input _ => "IN"
  | .output _ => "OUT"
  | .jumpIfTrue _ _ => "JT"
  | .jumpIfFalse _ _ => "JF"
  | .lessThan _ _ _ => "LT"
  | .equals _ _ _ => "EQ"
  | .adjustRelativeBase _ => "ARB"
  | .halt => "HLT"

/-- The instruction a mnemonic and the modes of its operands stand for: exactly one opcode (R98, R100). -/
def instrOf (mnemonic : List Char) (ms : List Mode) : Option Instr :=
  match ms with
  | [m1, m2, m3] =>
    if mnemonic = "ADD".toList then some (.add m1 m2 m3)
    else if mnemonic = "MUL".toList then some (.mul m1 m2 m3)
    else if mnemonic = "LT".toList then some (.lessThan m1 m2 m3)
    else if mnemonic = "EQ".toList then some (.equals m1 m2 m3)
    else none
  | [m1, m2] =>
    if mnemonic = "JT".toList then some (.jumpIfTrue m1 m2)
    else if mnemonic = "JF".toList then some (.jumpIfFalse m1 m2)
    else none
  | [m1] =>
    if mnemonic = "IN".toList then some (.input m1)
    else if mnemonic = "OUT".toList then some (.output m1)
    else if mnemonic = "ARB".toList then some (.adjustRelativeBase m1)
    else none
  | [] => if mnemonic = "HLT".toList then some .halt else none
  | _ => none

/-- The mode an operand is written in (R99). -/
def AsmOperand.mode : AsmOperand → Mode
  | .position _ => .position
  | .immediate _ => .immediate
  | .relativePlus _ => .relative
  | .relativeMinus _ => .relative

/-- How many cells a line emits: an instruction exactly its width (R100). -/
def AsmLine.size : AsmLine → Nat
  | .label _ => 0
  | .instr _ ops => 1 + ops.length
  | .data ks => ks.length

/-- The address a label names, that of the next cell emitted, where the lines start at address `a` (R99). -/
def labelAddr (name : List Char) (a : Nat) : List AsmLine → Option Nat
  | [] => none
  | .label n :: ls => if n = name then some a else labelAddr name a ls
  | l :: ls => labelAddr name (a + l.size) ls

/-- The labels a program defines, in order. -/
def labelNames : List AsmLine → List (List Char)
  | [] => []
  | .label n :: ls => n :: labelNames ls
  | _ :: ls => labelNames ls

/-- The value of `k` in a program. -/
def AsmConst.value (ls : List AsmLine) : AsmConst → Option Int
  | .literal k => some k
  | .label n => (labelAddr n 0 ls).map fun (a : Nat) => (a : Int)

/-- The raw parameter an operand is written for (R99). -/
def AsmOperand.raw (ls : List AsmLine) : AsmOperand → Option Int
  | .position k => k.value ls
  | .immediate k => k.value ls
  | .relativePlus k => k.value ls
  | .relativeMinus k => (k.value ls).map fun v => -v

/-- The cells of a line; an instruction with an Immediate destination is refused (R99). -/
def AsmLine.cells (ls : List AsmLine) : AsmLine → Option (List Int)
  | .label _ => some []
  | .data ks => ks.mapM (AsmConst.value ls)
  | .instr mn ops =>
    match instrOf mn (ops.map AsmOperand.mode), ops.mapM (AsmOperand.raw ls) with
    | some i, some ps => if i.wellFormed then some (encode i :: ps) else none
    | _, _ => none

/-- The program's cells from address 0 on (R99), or `none` where the program is refused: a bad line, an undefined or doubled
label, a value that is no cell. -/
def assemble (ls : List AsmLine) : Option (List Int) :=
  match ls.mapM (AsmLine.cells ls) with
  | some css => if (labelNames ls).Nodup ∧ css.flatten.all fitsCell then some css.flatten else none
  | none => none

/-! ### The text (DESIGN CHOICE, log 10) -/

/-- A blank inside a line: space, TAB or CR. -/
def isBlank (c : Char) : Bool := c == ' ' || c == '\t' || c == '\r'

/-- The text without the blanks at its two ends. -/
def trim (cs : List Char) : List Char := ((cs.dropWhile isBlank).reverse.dropWhile isBlank).reverse

/-- A label's name: a letter or `_`, then letters, digits and `_`. -/
def isLabelName : List Char → Bool
  | [] => false
  | c :: cs => (c.isAlpha || c == '_') && cs.all fun d => d.isAlphanum || d == '_'

/-- `k` (R99). -/
def parseConst (cs : List Char) : Option AsmConst :=
  match parseInteger cs with
  | some k => some (.literal k)
  | none => if isLabelName cs then some (.label cs) else none

/-- The operand between `[` and `]` (R99). -/
def parseBracket : List Char → Option AsmOperand
  | 'r' :: 'b' :: '+' :: k => (parseConst k).map .relativePlus
  | 'r' :: 'b' :: '-' :: k => (parseConst k).map .relativeMinus
  | k => (parseConst k).map .position

/-- One operand (R99). -/
def parseOperand : List Char → Option AsmOperand
  | '#' :: k => (parseConst k).map .immediate
  | '[' :: cs =>
    match cs.reverse with
    | ']' :: rest => parseBracket rest.reverse
    | _ => none
  | _ => none

/-- The comma-separated parts of the rest of a line; none at all where it is empty. -/
def fields (cs : List Char) : List (List Char) :=
  match trim cs with
  | [] => []
  | rest => (splitAt ',' rest).map trim

/-- One line, its comment cut off: nothing, a label, DATA or an instruction (R98, R99). DESIGN CHOICE, unsafe (log 10): a bare `DATA`
is accepted and emits no cell. -/
def parseLine (line : List Char) : Option (List AsmLine) :=
  match trim (line.takeWhile (· != ';')) with
  | [] => some []
  | cs =>
    match cs.reverse with
    | ':' :: name => if isLabelName name.reverse then some [.label name.reverse] else none
    | _ =>
      let word := cs.takeWhile fun c => !isBlank c
      let rest := fields (cs.dropWhile fun c => !isBlank c)
      if word = "DATA".toList then (rest.mapM parseConst).map fun ks => [.data ks]
      else (rest.mapM parseOperand).map fun ops => [.instr word ops]

/-- The lines of an assembly text. -/
def parseAssembly (t : List Char) : Option (List AsmLine) :=
  ((splitAt '\n' t).mapM parseLine).map List.flatten

/-- An assembly text to its cells. -/
def assembleText (t : List Char) : Option (List Int) :=
  match parseAssembly t with
  | some ls => assemble ls
  | none => none

end Sys2Proof.Machine
end

