-- ==== Sys2Proof/Safety.lean ====
section
/-! DEFINITION. The terms that claims about runs use: the invariant of 10_state.md R40, the end of a run (70_reset_and_hazards.md
R239) and what one step may have done. -/

namespace Sys2Proof.Machine

/-- The invariant of a core (R40). `Mem.wf` is the model's canonical form; the bounds of R9 and R10 stand for the capacities. -/
structure State.Inv (s : State) : Prop where
  /-- `is_addr(pc)`. -/
  pcAddr : isAddr s.pc = true
  /-- `fits_cell(rb)`. -/
  rbCell : fitsCell s.rb = true
  /-- The memory is in its canonical form. -/
  memWf : Mem.wf s.mem
  /-- Every listed address is an address. -/
  memAddr : ∀ c ∈ s.mem, isAddr c.1 = true
  /-- `fits_cell(Mem[a])` for every address `a`. -/
  memCell : ∀ a : Nat, fitsCell (s.mem.read a) = true
  /-- Every queued value is a cell. -/
  inqCell : ∀ v ∈ s.inq, fitsCell v = true
  /-- Every output value is a cell. -/
  outCell : ∀ v ∈ s.out, fitsCell v = true
  /-- `cause = none` iff `status` is not Faulted. -/
  causeStatus : s.cause = none ↔ s.status ≠ .faulted
  /-- `MEM_CELLS_MAX`, `INQ_DEPTH` and `OUT_DEPTH` are kept. -/
  room : withinBound Config.memCellsMax s.mem.length = true ∧
    withinBound Config.inqDepth s.inq.length = true ∧ withinBound Config.outDepth s.out.length = true

/-- A run is over exactly when the core is Halted or Faulted (R239). -/
def State.runEnded (s : State) : Prop := s.status = .halted ∨ s.status = .faulted

/-- The normal end of a run (R203, R239). -/
def State.endedNormally (s : State) : Prop := s.status = .halted

/-- The destination an instruction of these five writes at its commit: parameter 3 of ADD, MUL, LT, EQ, parameter 1 of IN
(30_encoding.md R82); the others write no cell (10_state.md R42). -/
def destination (i : Instr) (s : State) : Option (Except Abort Nat) :=
  match i with
  | .add _ _ m3 => some (dstOperand s 3 m3)
  | .mul _ _ m3 => some (dstOperand s 3 m3)
  | .lessThan _ _ m3 => some (dstOperand s 3 m3)
  | .equals _ _ m3 => some (dstOperand s 3 m3)
  | .input m1 => some (dstOperand s 1 m1)
  | .output _ => none
  | .jumpIfTrue _ _ => none
  | .jumpIfFalse _ _ => none
  | .adjustRelativeBase _ => none
  | .halt => none

end Sys2Proof.Machine
end

