-- ==== Sys2Proof/Certificates/Slice0/Obligations.lean ====
section
/-! DEFINITION. The statements for the provers. -/

open Sys2Proof Sys2Proof.Machine

/-! ### Encoding (30_encoding.md) -/

/-- The worked decodings of R101, each word as the spec writes it. -/
def Obligations.WorkedWordsDecodeAsTheSpecSays : Prop :=
  decode 1002 = .ok (.mul .position .immediate .position) ∧
  decode 204 = .ok (.output .relative) ∧
  decode 109 = .ok (.adjustRelativeBase .immediate) ∧
  decode 1008 = .ok (.equals .position .immediate .position) ∧
  decode 1006 = .ok (.jumpIfFalse .position .immediate) ∧
  decode 1001 = .ok (.add .position .immediate .position) ∧
  decode 1102 = .ok (.mul .immediate .immediate .position) ∧
  decode 99 = .ok .halt ∧
  decode 0 = .error (.invalidOpcode 0) ∧
  decode 1300 = .error (.invalidOpcode 1300) ∧
  decode 302 = .error (.invalidParameterMode 302 1 3) ∧
  decode 11101 = .error (.invalidDestinationMode 11101 3) ∧
  decode 13101 = .error (.invalidParameterMode 13101 2 3) ∧
  decode 1004 = .error (.invalidParameterMode 1004 0 1)

/-- R80: the two low digits of a legal cell are the opcode, each digit above that is the mode of its parameter, and the cell is
the sum of its fields. -/
def Obligations.CellDigitsAreOpcodeAndModes : Prop :=
  ∀ (v : Nat) (i : Instr), decode v = .ok i →
    v % 100 = i.code ∧
    (∀ (k : Nat) (h : k < i.modes.length), digit v (k + 2) = (i.modes[k]).digit) ∧
    (∀ k, i.modes.length ≤ k → digit v (k + 2) = 0) ∧
    v = i.code + 100 * digit v 2 + 1000 * digit v 3 + 10000 * digit v 4

/-- Decoding and encoding are inverse on the well-formed instructions and the legal cells (R97). -/
def Obligations.DecodeAcceptsExactlyTheEncodings : Prop :=
  ∀ (v : Int) (i : Instr), decode v = .ok i ↔ (i.wellFormed = true ∧ encode i = v)

/-- The 99 legal cells of R95 are exactly the cells that decode. -/
def Obligations.LegalCellsAreTheNinetyNine : Prop :=
  ∀ v : Int, (∃ i, decode v = .ok i) ↔ v ∈
    ([1, 101, 201, 1001, 1101, 1201, 2001, 2101, 2201, 20001, 20101, 20201, 21001, 21101, 21201, 22001, 22101, 22201] ++
     [2, 102, 202, 1002, 1102, 1202, 2002, 2102, 2202, 20002, 20102, 20202, 21002, 21102, 21202, 22002, 22102, 22202] ++
     [3, 203] ++ [4, 104, 204] ++
     [5, 105, 205, 1005, 1105, 1205, 2005, 2105, 2205] ++
     [6, 106, 206, 1006, 1106, 1206, 2006, 2106, 2206] ++
     [7, 107, 207, 1007, 1107, 1207, 2007, 2107, 2207, 20007, 20107, 20207, 21007, 21107, 21207, 22007, 22107, 22207] ++
     [8, 108, 208, 1008, 1108, 1208, 2008, 2108, 2208, 20008, 20108, 20208, 21008, 21108, 21208, 22008, 22108, 22208] ++
     [9, 109, 209] ++ [99] : List Int)

/-- R90 and R94: InvalidOpcode is raised by exactly the cells that are negative or whose two low digits are no opcode; an unset cell
therefore always faults when it is executed. -/
def Obligations.UnknownOpcodesAreRefused : Prop :=
  (∀ v : Int, (∃ w, decode v = .error (.invalidOpcode w)) ↔
    v < 0 ∨ v.toNat % 100 ∉ [1, 2, 3, 4, 5, 6, 7, 8, 9, 99]) ∧
  (∀ v w : Int, decode v = .error (.invalidOpcode w) → w = v) ∧
  (∀ s : State, s.status = .ready → isAddr s.pc = true → s.mem.read s.pc = 0 →
    step s = .next (faultEntry (.invalidOpcode 0) s))

/-- R91: the first mode digit 3 to 9 of an opcode with `n` parameters is reported, with its parameter and its value. -/
def Obligations.FirstBadModeDigitIsReported : Prop :=
  ∀ v n i : Nat, nparamsOf (v % 100) = some n → 1 ≤ i → i ≤ n → 2 < digit v (i + 1) →
    (∀ j, 1 ≤ j → j < i → digit v (j + 1) ≤ 2) →
    decode v = .error (.invalidParameterMode v i (digit v (i + 1)))

/-- R92: a digit other than 0 above the mode digits of an opcode with `n` parameters is reported, after those digits are checked. -/
def Obligations.ExcessDigitsAreRefused : Prop :=
  ∀ v n : Nat, nparamsOf (v % 100) = some n → (∀ j, 1 ≤ j → j ≤ n → digit v (j + 1) ≤ 2) →
    digitsAbove v (n + 2) ≠ 0 →
    decode v = .error (.invalidParameterMode v 0 (digitsAbove v (n + 2)))

/-- R93: the cells refused for an Immediate destination are exactly those of opcodes 1, 2, 7, 8 with third mode digit 1 and of opcode 3
with first mode digit 1; and the refusal happens when the cell is decoded at `pc`, before a parameter is fetched. -/
def Obligations.ImmediateDestinationsAreRefused : Prop :=
  (∀ (v w : Int) (p : Nat), decode v = .error (.invalidDestinationMode w p) ↔ w = v ∧
    ((p = 3 ∧ ∃ op ∈ [1, 2, 7, 8], ∃ m1 ∈ [0, 1, 2], ∃ m2 ∈ [0, 1, 2], v = op + 100 * m1 + 1000 * m2 + 10000) ∨
     (p = 1 ∧ v = 103))) ∧
  (∀ (s : State) (p : Nat), s.status = .ready → isAddr s.pc = true →
    decode (s.mem.read s.pc) = .error (.invalidDestinationMode (s.mem.read s.pc) p) →
    step s = .next (faultEntry (.invalidDestinationMode (s.mem.read s.pc) p) s))

/-! ### Ranges, operands (00_scope.md, 40_engine.md section 2) -/

/-- R8: the cell range of a `w`-bit cell, the address range of this hardware's 128-bit cells, and width `inf`. -/
def Obligations.CellAndAddressRanges : Prop :=
  (∀ (w : Nat) (v : Int), fitsCellOf (some w) v = true ↔ -(2 ^ (w - 1) : Int) ≤ v ∧ v ≤ 2 ^ (w - 1) - 1) ∧
  (∀ v : Int, fitsCell v = true ↔
    -170141183460469231731687303715884105728 ≤ v ∧ v ≤ 170141183460469231731687303715884105727) ∧
  (∀ a : Int, isAddr a = true ↔ 0 ≤ a ∧ a ≤ 170141183460469231731687303715884105727) ∧
  (∀ v : Int, fitsCellOf none v = true)

/-- R111: what each mode makes of a source parameter. -/
def Obligations.SourceModesResolve : Prop :=
  ∀ (s : State) (p : Int),
    srcValue s p .position = (if isAddr p then .ok (s.mem.read p.toNat) else .error (.invalidAddress p)) ∧
    srcValue s p .immediate = .ok p ∧
    srcValue s p .relative =
      (if isAddr (p + s.rb) then .ok (s.mem.read (p + s.rb).toNat) else .error (.invalidAddress (p + s.rb))) ∧
    (fitsCell p = true → (srcValue s p .position = .error (.invalidAddress p) ↔ p < 0))

/-- R112: a destination is the parameter itself, or the parameter plus the relative base, checked as an address and not
dereferenced. -/
def Obligations.DestinationModesResolve : Prop :=
  ∀ (s : State) (p : Int),
    dstAddr s p .position = (if isAddr p then .ok p.toNat else .error (.raised (.invalidAddress p))) ∧
    dstAddr s p .relative =
      (if isAddr (p + s.rb) then .ok (p + s.rb).toNat else .error (.raised (.invalidAddress (p + s.rb)))) ∧
    (∀ m, dstAddr { s with mem := [] } p m = dstAddr s p m)

/-- The parameters are fetched from the cells after the instruction cell and resolved in ascending order; the first fault is
taken and ends the cycle, for every instruction with parameters (R81, R113). -/
def Obligations.FirstFaultingParameterIsTaken : Prop :=
  (∀ (s : State) (i : Nat), param s i =
    if isAddr (s.pc + i) then .ok (s.mem.read (s.pc + i)) else .error (.invalidAddress (s.pc + i))) ∧
  (∀ (s : State) (i : Nat) (m : Mode),
    (∀ c, param s i = .error c → srcOperand s i m = .error (.raised c) ∧ dstOperand s i m = .error (.raised c)) ∧
    (∀ p, param s i = .ok p → dstOperand s i m = dstAddr s p m ∧
      (∀ a, srcValue s p m = .ok a → srcOperand s i m = .ok a) ∧
      (∀ c, srcValue s p m = .error c → srcOperand s i m = .error (.raised c)))) ∧
  (∀ (mk : Mode → Mode → Mode → Instr), mk ∈ [Instr.add, Instr.mul, Instr.lessThan, Instr.equals] →
    ∀ (s : State) (m1 m2 m3 : Mode) (c : FaultCause),
      (srcOperand s 1 m1 = .error (.raised c) → exec (mk m1 m2 m3) s = .next (faultEntry c s)) ∧
      (∀ a, srcOperand s 1 m1 = .ok a → srcOperand s 2 m2 = .error (.raised c) →
        exec (mk m1 m2 m3) s = .next (faultEntry c s)) ∧
      (∀ a b, srcOperand s 1 m1 = .ok a → srcOperand s 2 m2 = .ok b → dstOperand s 3 m3 = .error (.raised c) →
        exec (mk m1 m2 m3) s = .next (faultEntry c s))) ∧
  (∀ (mk : Mode → Mode → Instr), mk ∈ [Instr.jumpIfTrue, Instr.jumpIfFalse] →
    ∀ (s : State) (m1 m2 : Mode) (c : FaultCause),
      (srcOperand s 1 m1 = .error (.raised c) → exec (mk m1 m2) s = .next (faultEntry c s)) ∧
      (∀ a, srcOperand s 1 m1 = .ok a → srcOperand s 2 m2 = .error (.raised c) →
        exec (mk m1 m2) s = .next (faultEntry c s))) ∧
  (∀ (mk : Mode → Instr), mk ∈ [Instr.output, Instr.adjustRelativeBase] →
    ∀ (s : State) (m1 : Mode) (c : FaultCause),
      srcOperand s 1 m1 = .error (.raised c) → exec (mk m1) s = .next (faultEntry c s)) ∧
  (∀ (s : State) (m1 : Mode) (c : FaultCause),
      dstOperand s 1 m1 = .error (.raised c) → exec (.input m1) s = .next (faultEntry c s))

/-- The operands of a format are its parameters resolved in order (the terms the instruction statements below use; R113). -/
def Obligations.OperandsAreTheResolvedParameters : Prop :=
  (∀ (s : State) (m1 m2 m3 : Mode) (a b : Int) (d : Nat), operandsSSD s m1 m2 m3 = .ok (a, b, d) ↔
    ∃ p1 p2 p3, param s 1 = .ok p1 ∧ param s 2 = .ok p2 ∧ param s 3 = .ok p3 ∧
      srcValue s p1 m1 = .ok a ∧ srcValue s p2 m2 = .ok b ∧ dstAddr s p3 m3 = .ok d) ∧
  (∀ (s : State) (m1 m2 : Mode) (a b : Int), operandsSS s m1 m2 = .ok (a, b) ↔
    ∃ p1 p2, param s 1 = .ok p1 ∧ param s 2 = .ok p2 ∧ srcValue s p1 m1 = .ok a ∧ srcValue s p2 m2 = .ok b) ∧
  (∀ (s : State) (i : Nat) (m : Mode) (a : Int), srcOperand s i m = .ok a ↔
    ∃ p, param s i = .ok p ∧ srcValue s p m = .ok a) ∧
  (∀ (s : State) (i : Nat) (m : Mode) (d : Nat), dstOperand s i m = .ok d ↔
    ∃ p, param s i = .ok p ∧ dstAddr s p m = .ok d)

/-- MODEL'S CHOICE (log 6): an instruction with an Immediate destination is no instruction (R112 "unreachable"), and the model is stuck on
it once its sources resolve. No step reaches this (`ReadyCoreAlwaysAnswers`). -/
def Obligations.ImmediateDestinationIsStuck : Prop :=
  (∀ (mk : Mode → Mode → Mode → Instr), mk ∈ [Instr.add, Instr.mul, Instr.lessThan, Instr.equals] →
    ∀ (s : State) (m1 m2 : Mode) (a b p : Int), srcOperand s 1 m1 = .ok a → srcOperand s 2 m2 = .ok b →
      param s 3 = .ok p → exec (mk m1 m2 .immediate) s = .fault .immediateDestination) ∧
  (∀ (s : State) (p : Int), param s 1 = .ok p → exec (.input .immediate) s = .fault .immediateDestination)

/-! ### The ten instructions: what every cell of the opcode decodes to, each form's encoding, completion with the whole next state, and
every trap -/

/-- `ADD a, b, dest` (R140). -/
def Obligations.AddWritesTheExactSum : Prop :=
  (∀ v : Nat, v % 100 = 1 →
    (∃ m1 m2 m3, m3 ≠ .immediate ∧ decode v = .ok (.add m1 m2 m3)) ∨
    (∃ p d, decode v = .error (.invalidParameterMode v p d)) ∨ decode v = .error (.invalidDestinationMode v 3)) ∧
  ∀ (m1 m2 m3 : Mode) (s : State), m3 ≠ .immediate →
    decode (1 + 100 * m1.digit + 1000 * m2.digit + 10000 * m3.digit) = .ok (.add m1 m2 m3) ∧
    (∀ c, operandsSSD s m1 m2 m3 = .error (.raised c) → exec (.add m1 m2 m3) s = .next (faultEntry c s)) ∧
    (∀ (a b : Int) (d : Nat), operandsSSD s m1 m2 m3 = .ok (a, b, d) →
      (fitsCell (a + b) = true → isAddr (s.pc + 4) = true →
        exec (.add m1 m2 m3) s = .next { s with mem := s.mem.write d (a + b), pc := s.pc + 4 }) ∧
      (fitsCell (a + b) = false →
        exec (.add m1 m2 m3) s = .next (faultEntry (.arithmeticOverflow (a + b)) s)) ∧
      (fitsCell (a + b) = true → isAddr (s.pc + 4) = false →
        exec (.add m1 m2 m3) s = .next (faultEntry (.invalidAddress (s.pc + 4)) s)))

/-- `MUL a, b, dest` (R141). -/
def Obligations.MulWritesTheExactProduct : Prop :=
  (∀ v : Nat, v % 100 = 2 →
    (∃ m1 m2 m3, m3 ≠ .immediate ∧ decode v = .ok (.mul m1 m2 m3)) ∨
    (∃ p d, decode v = .error (.invalidParameterMode v p d)) ∨ decode v = .error (.invalidDestinationMode v 3)) ∧
  ∀ (m1 m2 m3 : Mode) (s : State), m3 ≠ .immediate →
    decode (2 + 100 * m1.digit + 1000 * m2.digit + 10000 * m3.digit) = .ok (.mul m1 m2 m3) ∧
    (∀ c, operandsSSD s m1 m2 m3 = .error (.raised c) → exec (.mul m1 m2 m3) s = .next (faultEntry c s)) ∧
    (∀ (a b : Int) (d : Nat), operandsSSD s m1 m2 m3 = .ok (a, b, d) →
      (fitsCell (a * b) = true → isAddr (s.pc + 4) = true →
        exec (.mul m1 m2 m3) s = .next { s with mem := s.mem.write d (a * b), pc := s.pc + 4 }) ∧
      (fitsCell (a * b) = false →
        exec (.mul m1 m2 m3) s = .next (faultEntry (.arithmeticOverflow (a * b)) s)) ∧
      (fitsCell (a * b) = true → isAddr (s.pc + 4) = false →
        exec (.mul m1 m2 m3) s = .next (faultEntry (.invalidAddress (s.pc + 4)) s)))

/-- `IN dest` with a value in the queue (R150). -/
def Obligations.InputStoresTheOldestValue : Prop :=
  (∀ v : Nat, v % 100 = 3 →
    (∃ m1, m1 ≠ .immediate ∧ decode v = .ok (.input m1)) ∨
    (∃ p d, decode v = .error (.invalidParameterMode v p d)) ∨ decode v = .error (.invalidDestinationMode v 1)) ∧
  ∀ (m1 : Mode) (s : State), m1 ≠ .immediate →
    decode (3 + 100 * m1.digit) = .ok (.input m1) ∧
    (∀ c, dstOperand s 1 m1 = .error (.raised c) → exec (.input m1) s = .next (faultEntry c s)) ∧
    (∀ d, dstOperand s 1 m1 = .ok d → s.inq = [] → exec (.input m1) s = .next s) ∧
    (∀ (d : Nat) (v : Int) (q : List Int), dstOperand s 1 m1 = .ok d → s.inq = v :: q → fitsCell v = true →
      (isAddr (s.pc + 2) = true →
        exec (.input m1) s = .next { s with mem := s.mem.write d v, inq := q, pc := s.pc + 2 }) ∧
      (isAddr (s.pc + 2) = false →
        exec (.input m1) s = .next (faultEntry (.invalidAddress (s.pc + 2)) s)))

/-- `IN dest` with the queue empty (R151): NeedMoreInput, nothing changes, and the host's `step()` gives the same again; the destination
is resolved first. -/
def Obligations.InputWaitsOnAnEmptyQueue : Prop :=
  (∀ (m1 : Mode) (s : State), s.inq = [] →
    (∀ d, dstOperand s 1 m1 = .ok d → exec (.input m1) s = .next s ∧
      (s.status = .ready → fetchDecode s = .ok (.input m1) →
        StepReturns s .needMoreInput s ∧ ∀ r t, StepReturns s r t → r = .needMoreInput ∧ t = s)) ∧
    (∀ c, dstOperand s 1 m1 = .error (.raised c) → exec (.input m1) s = .next (faultEntry c s) ∧
      (s.status = .ready → fetchDecode s = .ok (.input m1) → StepReturns s (.fault c) (faultEntry c s)))) ∧
  (∀ (s : State) (c : FaultCause), s.inq = [] → s.status = .ready → fetchDecode s = .error c →
    StepReturns s (.fault c) (faultEntry c s))

/-- `OUT a` (R152), with the result of the host's `step()`. -/
def Obligations.OutputAppendsItsOperand : Prop :=
  (∀ v : Nat, v % 100 = 4 →
    (∃ m1, decode v = .ok (.output m1)) ∨ (∃ p d, decode v = .error (.invalidParameterMode v p d))) ∧
  ∀ (m1 : Mode) (s : State),
    decode (4 + 100 * m1.digit) = .ok (.output m1) ∧
    (∀ c, srcOperand s 1 m1 = .error (.raised c) → exec (.output m1) s = .next (faultEntry c s)) ∧
    (∀ a, srcOperand s 1 m1 = .ok a →
      (isAddr (s.pc + 2) = true →
        exec (.output m1) s = .next { s with out := s.out ++ [a], pc := s.pc + 2 } ∧
        (s.status = .ready → fetchDecode s = .ok (.output m1) →
          StepReturns s (.output a) { s with out := s.out ++ [a], pc := s.pc + 2 })) ∧
      (isAddr (s.pc + 2) = false →
        exec (.output m1) s = .next (faultEntry (.invalidAddress (s.pc + 2)) s)))

/-- `JT cond, target` (R160). -/
def Obligations.JumpIfTrueJumpsOnNonZero : Prop :=
  (∀ v : Nat, v % 100 = 5 →
    (∃ m1 m2, decode v = .ok (.jumpIfTrue m1 m2)) ∨ (∃ p d, decode v = .error (.invalidParameterMode v p d))) ∧
  ∀ (m1 m2 : Mode) (s : State),
    decode (5 + 100 * m1.digit + 1000 * m2.digit) = .ok (.jumpIfTrue m1 m2) ∧
    (∀ c, operandsSS s m1 m2 = .error (.raised c) → exec (.jumpIfTrue m1 m2) s = .next (faultEntry c s)) ∧
    (∀ cond target : Int, operandsSS s m1 m2 = .ok (cond, target) →
      (cond ≠ 0 → isAddr target = true → exec (.jumpIfTrue m1 m2) s = .next { s with pc := target.toNat }) ∧
      (cond ≠ 0 → isAddr target = false →
        exec (.jumpIfTrue m1 m2) s = .next (faultEntry (.invalidAddress target) s)) ∧
      (cond = 0 → isAddr (s.pc + 3) = true → exec (.jumpIfTrue m1 m2) s = .next { s with pc := s.pc + 3 }) ∧
      (cond = 0 → isAddr (s.pc + 3) = false →
        exec (.jumpIfTrue m1 m2) s = .next (faultEntry (.invalidAddress (s.pc + 3)) s)))

/-- `JF cond, target` (R161). -/
def Obligations.JumpIfFalseJumpsOnZero : Prop :=
  (∀ v : Nat, v % 100 = 6 →
    (∃ m1 m2, decode v = .ok (.jumpIfFalse m1 m2)) ∨ (∃ p d, decode v = .error (.invalidParameterMode v p d))) ∧
  ∀ (m1 m2 : Mode) (s : State),
    decode (6 + 100 * m1.digit + 1000 * m2.digit) = .ok (.jumpIfFalse m1 m2) ∧
    (∀ c, operandsSS s m1 m2 = .error (.raised c) → exec (.jumpIfFalse m1 m2) s = .next (faultEntry c s)) ∧
    (∀ cond target : Int, operandsSS s m1 m2 = .ok (cond, target) →
      (cond = 0 → isAddr target = true → exec (.jumpIfFalse m1 m2) s = .next { s with pc := target.toNat }) ∧
      (cond = 0 → isAddr target = false →
        exec (.jumpIfFalse m1 m2) s = .next (faultEntry (.invalidAddress target) s)) ∧
      (cond ≠ 0 → isAddr (s.pc + 3) = true → exec (.jumpIfFalse m1 m2) s = .next { s with pc := s.pc + 3 }) ∧
      (cond ≠ 0 → isAddr (s.pc + 3) = false →
        exec (.jumpIfFalse m1 m2) s = .next (faultEntry (.invalidAddress (s.pc + 3)) s)))

/-- `LT a, b, dest` (R170). -/
def Obligations.LessThanWritesOneOrZero : Prop :=
  (∀ v : Nat, v % 100 = 7 →
    (∃ m1 m2 m3, m3 ≠ .immediate ∧ decode v = .ok (.lessThan m1 m2 m3)) ∨
    (∃ p d, decode v = .error (.invalidParameterMode v p d)) ∨ decode v = .error (.invalidDestinationMode v 3)) ∧
  ∀ (m1 m2 m3 : Mode) (s : State), m3 ≠ .immediate →
    decode (7 + 100 * m1.digit + 1000 * m2.digit + 10000 * m3.digit) = .ok (.lessThan m1 m2 m3) ∧
    (∀ c, operandsSSD s m1 m2 m3 = .error (.raised c) → exec (.lessThan m1 m2 m3) s = .next (faultEntry c s)) ∧
    (∀ (a b : Int) (d : Nat), operandsSSD s m1 m2 m3 = .ok (a, b, d) →
      (isAddr (s.pc + 4) = true → exec (.lessThan m1 m2 m3) s =
        .next { s with mem := s.mem.write d (if a < b then 1 else 0), pc := s.pc + 4 }) ∧
      (isAddr (s.pc + 4) = false →
        exec (.lessThan m1 m2 m3) s = .next (faultEntry (.invalidAddress (s.pc + 4)) s)))

/-- `EQ a, b, dest` (R171). -/
def Obligations.EqualsWritesOneOrZero : Prop :=
  (∀ v : Nat, v % 100 = 8 →
    (∃ m1 m2 m3, m3 ≠ .immediate ∧ decode v = .ok (.equals m1 m2 m3)) ∨
    (∃ p d, decode v = .error (.invalidParameterMode v p d)) ∨ decode v = .error (.invalidDestinationMode v 3)) ∧
  ∀ (m1 m2 m3 : Mode) (s : State), m3 ≠ .immediate →
    decode (8 + 100 * m1.digit + 1000 * m2.digit + 10000 * m3.digit) = .ok (.equals m1 m2 m3) ∧
    (∀ c, operandsSSD s m1 m2 m3 = .error (.raised c) → exec (.equals m1 m2 m3) s = .next (faultEntry c s)) ∧
    (∀ (a b : Int) (d : Nat), operandsSSD s m1 m2 m3 = .ok (a, b, d) →
      (isAddr (s.pc + 4) = true → exec (.equals m1 m2 m3) s =
        .next { s with mem := s.mem.write d (if a = b then 1 else 0), pc := s.pc + 4 }) ∧
      (isAddr (s.pc + 4) = false →
        exec (.equals m1 m2 m3) s = .next (faultEntry (.invalidAddress (s.pc + 4)) s)))

/-- `ARB a` (R180). -/
def Obligations.AdjustRelativeBaseAddsItsOperand : Prop :=
  (∀ v : Nat, v % 100 = 9 →
    (∃ m1, decode v = .ok (.adjustRelativeBase m1)) ∨ (∃ p d, decode v = .error (.invalidParameterMode v p d))) ∧
  ∀ (m1 : Mode) (s : State),
    decode (9 + 100 * m1.digit) = .ok (.adjustRelativeBase m1) ∧
    (∀ c, srcOperand s 1 m1 = .error (.raised c) → exec (.adjustRelativeBase m1) s = .next (faultEntry c s)) ∧
    (∀ a, srcOperand s 1 m1 = .ok a →
      (fitsCell (s.rb + a) = true → isAddr (s.pc + 2) = true →
        exec (.adjustRelativeBase m1) s = .next { s with rb := s.rb + a, pc := s.pc + 2 }) ∧
      (fitsCell (s.rb + a) = false →
        exec (.adjustRelativeBase m1) s = .next (faultEntry (.arithmeticOverflow (s.rb + a)) s)) ∧
      (fitsCell (s.rb + a) = true → isAddr (s.pc + 2) = false →
        exec (.adjustRelativeBase m1) s = .next (faultEntry (.invalidAddress (s.pc + 2)) s)))

/-- `HLT` (R185): the single cell 99, no fault of its own, `pc` kept, and the host's `step()` returns Halt. -/
def Obligations.HaltEndsTheRun : Prop :=
  decode 99 = .ok .halt ∧
  (∀ v : Nat, v % 100 = 99 → v ≠ 99 → decode v = .error (.invalidParameterMode v 0 (digitsAbove v 2))) ∧
  (∀ s : State, exec .halt s = .next { s with status := .halted }) ∧
  (∀ s : State, s.status = .ready → fetchDecode s = .ok .halt →
    StepReturns s .halt { s with status := .halted })

/-- R142: an exact sum, product or new relative base that is no cell raises ArithmeticOverflow of that exact result, commits nothing,
and never wraps; with cells in the queue nothing else raises that fault; with width `inf` it cannot occur. -/
def Obligations.OverflowIsRaisedNotWrapped : Prop :=
  (∀ (m1 m2 m3 : Mode) (s : State) (a b : Int) (d : Nat), operandsSSD s m1 m2 m3 = .ok (a, b, d) →
    (fitsCell (a + b) = false → exec (.add m1 m2 m3) s =
      .next { s with status := .faulted, cause := some (.arithmeticOverflow (a + b)) }) ∧
    (fitsCell (a * b) = false → exec (.mul m1 m2 m3) s =
      .next { s with status := .faulted, cause := some (.arithmeticOverflow (a * b)) })) ∧
  (∀ (m1 : Mode) (s : State) (a : Int), srcOperand s 1 m1 = .ok a → fitsCell (s.rb + a) = false →
    exec (.adjustRelativeBase m1) s =
      .next { s with status := .faulted, cause := some (.arithmeticOverflow (s.rb + a)) }) ∧
  (∀ (s t : State) (r : Int), (∀ v ∈ s.inq, fitsCell v = true) →
    cycle s = .next (.fault (.arithmeticOverflow r), t) →
    fitsCell r = false ∧ ∃ i, fetchDecode s = .ok i ∧
      ((∃ m1 m2 m3 a b d, i = .add m1 m2 m3 ∧ operandsSSD s m1 m2 m3 = .ok (a, b, d) ∧ r = a + b) ∨
       (∃ m1 m2 m3 a b d, i = .mul m1 m2 m3 ∧ operandsSSD s m1 m2 m3 = .ok (a, b, d) ∧ r = a * b) ∨
       (∃ m1 a, i = .adjustRelativeBase m1 ∧ srcOperand s 1 m1 = .ok a ∧ r = s.rb + a))) ∧
  (∀ v : Int, fitsCellOf none v = true)

/-! ### Frames, for every instruction and form -/

/-- Every cell but the instruction's destination reads as before; the instructions without a destination change no cell (R42, R53, R120). -/
def Obligations.OnlyTheDestinationCellChanges : Prop :=
  ∀ (i : Instr) (s t : State), exec i s = .next t →
    ∀ a : Nat, destination i s ≠ some (.ok a) → t.mem.read a = s.mem.read a

/-- The registers and queues an instruction leaves alone: `rb` changes only by ARB, by its operand; `inq` only by IN, by its head;
`out` only by OUT, by its operand; `status` only by HLT or a fault; `cause` only by a fault (R24, R30, R31, R32, R33, R42). -/
def Obligations.RegistersAndQueuesFrame : Prop :=
  ∀ (i : Instr) (s t : State), exec i s = .next t →
    (t.rb ≠ s.rb → ∃ m a, i = .adjustRelativeBase m ∧ srcOperand s 1 m = .ok a ∧ t.rb = s.rb + a) ∧
    (t.inq ≠ s.inq → ∃ m v, i = .input m ∧ s.inq = v :: t.inq) ∧
    (t.out ≠ s.out → ∃ m a, i = .output m ∧ srcOperand s 1 m = .ok a ∧ t.out = s.out ++ [a]) ∧
    (t.status ≠ s.status → (i = .halt ∧ t.status = .halted) ∨ ∃ c, t = faultEntry c s) ∧
    (t.cause ≠ s.cause → ∃ c, t = faultEntry c s)

/-- R22: `pc` advances by the instruction's width, or is the target of a taken jump, or stays: for HLT, for IN with the queue empty,
and on a fault. -/
def Obligations.PcAdvancesByWidthOrJump : Prop :=
  (∀ (s t : State) (v : Int), enqueueInput v s = some t → t.pc = s.pc) ∧
  ∀ (i : Instr) (s t : State), exec i s = .next t →
    (∃ c, t = faultEntry c s) ∨
    match i with
    | .add _ _ _ => t.pc = s.pc + 4
    | .mul _ _ _ => t.pc = s.pc + 4
    | .lessThan _ _ _ => t.pc = s.pc + 4
    | .equals _ _ _ => t.pc = s.pc + 4
    | .input _ => if s.inq = [] then t.pc = s.pc else t.pc = s.pc + 2
    | .output _ => t.pc = s.pc + 2
    | .adjustRelativeBase _ => t.pc = s.pc + 2
    | .jumpIfTrue m1 m2 => ∃ cond target, operandsSS s m1 m2 = .ok (cond, target) ∧
        if cond ≠ 0 then (t.pc : Int) = target else t.pc = s.pc + 3
    | .jumpIfFalse m1 m2 => ∃ cond target, operandsSS s m1 m2 = .ok (cond, target) ∧
        if cond = 0 then (t.pc : Int) = target else t.pc = s.pc + 3
    | .halt => t.pc = s.pc

/-- R31: the core never reads `out`: earlier output changes nothing an instruction does. -/
def Obligations.EarlierOutputChangesNothing : Prop :=
  ∀ (i : Instr) (s t : State) (o : List Int), exec i s = .next t →
    exec i { s with out := o ++ s.out } = .next { t with out := o ++ t.out }

/-- R30: no instruction but IN inspects the input queue. -/
def Obligations.OnlyInputReadsTheQueue : Prop :=
  ∀ (i : Instr) (s t : State) (q : List Int), (∀ m, i ≠ .input m) → exec i s = .next t →
    exec i { s with inq := q } = .next { t with inq := q }

/-! ### The cycle and one step of the model (40_engine.md section 3) -/

/-- A step runs the decoded instruction and adds nothing around it. -/
def Obligations.StepRunsTheDecodedInstruction : Prop :=
  ∀ (s : State) (i : Instr), s.status = .ready → isAddr s.pc = true → decode (s.mem.read s.pc) = .ok i →
    i.wellFormed = true → step s = exec i s

/-- A decode fault of the cell at `pc` is taken by the step. -/
def Obligations.StepTakesTheDecodeFault : Prop :=
  ∀ (s : State) (c : FaultCause), s.status = .ready → isAddr s.pc = true → decode (s.mem.read s.pc) = .error c →
    step s = .next (faultEntry c s)

/-- R117, R132: a core that is not Ready executes nothing: the step is refused and the host's `step()` and `run_until_blocked()` have
no result. -/
def Obligations.NothingRunsUnlessReady : Prop :=
  ∀ s : State,
    (s.status = .halted → step s = .refused .stepWhenHalted) ∧
    (s.status = .faulted → step s = .refused .stepWhenFaulted) ∧
    (s.status ≠ .ready → (∀ r t, ¬ StepReturns s r t) ∧ (∀ vs r t, ¬ RunReturns s vs r t))

/-- R118: on a Ready core every cycle ends with exactly one result; the model never stops there. -/
def Obligations.ReadyCoreAlwaysAnswers : Prop :=
  ∀ s : State, s.status = .ready →
    ∃ r t, cycle s = .next (r, t) ∧ step s = .next t ∧ (t.status = .faulted ↔ ∃ c, r = .fault c) ∧
      (t.status = .halted ↔ r = .halt)

/-- R122: the result of each instruction's cycle that does not fault: only OUT, HLT and IN on an empty queue end the host's `step()`; every
other instruction, and IN with a value, is silent. -/
def Obligations.OnlyEventsYieldToTheHost : Prop :=
  ∀ (i : Instr) (s t : State) (r : Result), fetchDecode s = .ok i → cycle s = .next (r, t) →
    (∃ c, r = .fault c ∧ t = faultEntry c s) ∨
    match i with
    | .add _ _ _ => r = .continue
    | .mul _ _ _ => r = .continue
    | .lessThan _ _ _ => r = .continue
    | .equals _ _ _ => r = .continue
    | .jumpIfTrue _ _ => r = .continue
    | .jumpIfFalse _ _ => r = .continue
    | .adjustRelativeBase _ => r = .continue
    | .input _ => r = if s.inq = [] then .needMoreInput else .continue
    | .output m1 => ∃ a, srcOperand s 1 m1 = .ok a ∧ r = .output a
    | .halt => r = .halt

/-- A store is seen by the very next fetch, with no fence: the next step decodes the cell just written where it stands at the new `pc`,
and the old cell elsewhere (R64). -/
def Obligations.StoresReachTheNextFetch : Prop :=
  (∀ (m1 m2 m3 : Mode) (s : State) (a b : Int) (d : Nat), s.status = .ready → isAddr (s.pc + 4) = true →
    operandsSSD s m1 m2 m3 = .ok (a, b, d) →
    (fetchDecode s = .ok (.add m1 m2 m3) → fitsCell (a + b) = true →
      ∃ t, step s = .next t ∧ t.status = .ready ∧ t.pc = s.pc + 4 ∧
        fetchDecode t = decode (if s.pc + 4 = d then a + b else s.mem.read (s.pc + 4))) ∧
    (fetchDecode s = .ok (.mul m1 m2 m3) → fitsCell (a * b) = true →
      ∃ t, step s = .next t ∧ t.status = .ready ∧ t.pc = s.pc + 4 ∧
        fetchDecode t = decode (if s.pc + 4 = d then a * b else s.mem.read (s.pc + 4)))) ∧
  (∀ (m1 : Mode) (s : State) (v : Int) (q : List Int) (d : Nat), s.status = .ready → isAddr (s.pc + 2) = true →
    fetchDecode s = .ok (.input m1) → dstOperand s 1 m1 = .ok d → s.inq = v :: q → fitsCell v = true →
    ∃ t, step s = .next t ∧ t.status = .ready ∧ t.pc = s.pc + 2 ∧
      fetchDecode t = decode (if s.pc + 2 = d then v else s.mem.read (s.pc + 2)))

/-- R198: fault entry records the cause and changes nothing else; a cycle that ends with a fault has done exactly that. -/
def Obligations.FaultsArePrecise : Prop :=
  (∀ (c : FaultCause) (s : State), faultEntry c s =
    { pc := s.pc, rb := s.rb, mem := s.mem, inq := s.inq, out := s.out, status := .faulted, cause := some c }) ∧
  (∀ (s t : State) (c : FaultCause), cycle s = .next (.fault c, t) → t = faultEntry c s) ∧
  (∀ s t : State, step s = .next t → t.status = .faulted → ∃ c, t = faultEntry c s ∧ StepReturns s (.fault c) t)

/-- R32: a core starts Ready; Halted is entered from Ready by opcode 99 only and Faulted from Ready by a fault only; nothing leaves either
(R239: a run is over exactly where no step runs), input is only queued there; and no instruction reads `status` or `cause`. -/
def Obligations.StatusTransitions : Prop :=
  (∀ (P : List Int) (s : State), construct P = some s → s.status = .ready) ∧
  (∀ s t : State, step s = .next t → s.status = .ready ∧
    (t.status = .ready ∨ (t.status = .halted ∧ fetchDecode s = .ok .halt) ∨
      (t.status = .faulted ∧ ∃ c, t = faultEntry c s))) ∧
  (∀ s : State, s.runEnded ↔ ∀ t, step s ≠ .next t) ∧
  (∀ (s t : State) (v : Int), enqueueInput v s = some t → t.status = s.status ∧ t.cause = s.cause) ∧
  (∀ (i : Instr) (s : State) (st : Status) (k : Option FaultCause),
    instrCycle i { s with status := st, cause := k } = instrCycle i s)

/-- Every step keeps the invariant of R40, the canonical memory among it. -/
def Obligations.StepKeepsTheInvariant : Prop :=
  ∀ s t : State, s.Inv → step s = .next t → t.Inv

/-- The invariant holds at reset. -/
def Obligations.ResetMeetsTheInvariant : Prop := State.reset.Inv

/-- Construction from any image and `enqueue_input` of any value establish and keep the invariant of R40. -/
def Obligations.HostOperationsKeepTheInvariant : Prop :=
  (∀ (P : List Int) (s : State), construct P = some s → s.Inv) ∧
  (∀ (s t : State) (v : Int), s.Inv → enqueueInput v s = some t → t.Inv)

/-- Every state a host can bring a core into meets the invariant of R40. That input may come between any two cycles is the MODEL'S CHOICE
(log 12), which admits more runs than the spec. -/
def Obligations.ReachableStatesMeetTheInvariant : Prop :=
  ∀ s : State, Reachable s → s.Inv

/-- Over any number of steps the output only grows at its end and the input is only consumed from its head (R30, R31). -/
def Obligations.QueuesMoveInOrder : Prop :=
  ∀ (n : Nat) (s t : State), Sys2Proof.core.run n s = .next t → s.out <+: t.out ∧ t.inq <:+ s.inq

/-! ### Memory (20_memory.md) -/

/-- A read gives the value last written there, and a write leaves every other address alone (R53, R60). -/
def Obligations.MemoryReadAfterWrite : Prop :=
  ∀ (m : Mem) (a b : Nat) (v : Int), (m.write a v).read b = if b = a then v else m.read b

/-- Memories are equal when they read the same everywhere; writing 0 to an address that reads 0 changes nothing, and writing
the old value back restores the memory (R68). -/
def Obligations.EqualMemoriesAreEqualData : Prop :=
  (∀ m m' : Mem, m.wf → m'.wf → (∀ a, m.read a = m'.read a) → m = m') ∧
  (∀ (m : Mem) (a : Nat), m.wf → m.read a = 0 → m.write a 0 = m) ∧
  (∀ (m : Mem) (a : Nat) (v : Int), m.wf → (m.write a v).write a (m.read a) = m)

/-! ### The host's operations (40_engine.md sections 4 and 5; 70_reset_and_hazards.md) -/

/-- R124: `step()` runs cycles until a result other than Continue, and what holds after each result. -/
def Obligations.StepRunsToTheNextEvent : Prop :=
  (∀ (s t : State) (r : Result), StepReturns s r t ↔
    ∃ r1 s1, cycle s = .next (r1, s1) ∧ ((r1 = .continue ∧ StepReturns s1 r t) ∨ (r1 ≠ .continue ∧ r = r1 ∧ t = s1))) ∧
  (∀ (s t : State) (r : Result), StepReturns s r t → s.status = .ready ∧ r ≠ .continue ∧
    (∀ v, r = .output v → t.status = .ready ∧ t.out = s.out ++ [v] ∧
      ∃ u m, fetchDecode u = .ok (.output m) ∧ cycle u = .next (.output v, t) ∧ t.pc = u.pc + 2) ∧
    (r = .needMoreInput → t.status = .ready ∧ t.inq = [] ∧ cycle t = .next (.needMoreInput, t)) ∧
    (r = .halt → t.status = .halted) ∧
    (∀ c, r = .fault c → t.status = .faulted ∧ t.cause = some c))

/-- `step()` has at most one result (R12). -/
def Obligations.StepResultIsUnique : Prop :=
  ∀ (s t t' : State) (r r' : Result), StepReturns s r t → StepReturns s r' t' → r = r' ∧ t = t'

/-- The functions under fuel answer exactly the results of `step()` and of `run_until_blocked()` (R125, R128). -/
def Obligations.FuelFindsExactlyTheResults : Prop :=
  (∀ (s t : State) (r : Result), (∃ n, stepFuel n s = .next (some (r, t))) ↔ StepReturns s r t) ∧
  (∀ (s t : State) (vs : List Int) (r : Result),
    (∃ n, runFuel n s = .next (some (vs, r, t))) ↔ RunReturns s vs r t)

/-- A taken jump to its own address makes `step()` never return (R125). -/
def Obligations.SelfJumpNeverReturns : Prop :=
  ∀ (s : State) (m1 m2 : Mode) (cond : Int), s.status = .ready → isAddr s.pc = true →
    operandsSS s m1 m2 = .ok (cond, (s.pc : Int)) →
    (fetchDecode s = .ok (.jumpIfTrue m1 m2) ∧ cond ≠ 0 ∨ fetchDecode s = .ok (.jumpIfFalse m1 m2) ∧ cond = 0) →
    cycle s = .next (.continue, s) ∧ ∀ r t, ¬ StepReturns s r t

/-- After NeedMoreInput `step()` gives it again and changes nothing, until a value is queued; then the next cycle stores that value
(R133). -/
def Obligations.WaitingIsIdempotent : Prop :=
  ∀ s t : State, StepReturns s .needMoreInput t →
    StepReturns t .needMoreInput t ∧ (∀ r u, StepReturns t r u → r = .needMoreInput ∧ u = t) ∧
    ∃ m d, fetchDecode t = .ok (.input m) ∧ dstOperand t 1 m = .ok d ∧
      ∀ (v : Int) (u : State), isAddr (t.pc + 2) = true → enqueueInput v t = some u →
        cycle u = .next (.continue, { t with mem := t.mem.write d v, pc := t.pc + 2 })

/-- `run_until_blocked()` returns the values appended to `out` during it, in order, and stops on a result other than Output (R128, R129). -/
def Obligations.RunReturnsTheAppendedOutput : Prop :=
  (∀ (s t : State) (vs : List Int) (r : Result), RunReturns s vs r t ↔
    ∃ r1 s1, StepReturns s r1 s1 ∧
      ((∃ v ws, r1 = .output v ∧ vs = v :: ws ∧ RunReturns s1 ws r t) ∨
       ((∀ v, r1 ≠ .output v) ∧ vs = [] ∧ r = r1 ∧ t = s1))) ∧
  (∀ (s t : State) (vs : List Int) (r : Result), RunReturns s vs r t →
    t.out = s.out ++ vs ∧ (r = .needMoreInput ∨ r = .halt ∨ ∃ c, r = .fault c))

/-- R126: `enqueue_input(v)` of a cell appends at the tail, in every status, and changes nothing else; a value that is no cell cannot be
presented. -/
def Obligations.EnqueueAppendsAtTheTail : Prop :=
  ∀ (s : State) (v : Int),
    (fitsCell v = true → enqueueInput v s = some { s with inq := s.inq ++ [v] }) ∧
    (fitsCell v = false → enqueueInput v s = none)

/-- R127: `read_memory(a)` of an address returns `Mem[a]`, in every status. -/
def Obligations.ReadMemoryReturnsTheCell : Prop :=
  ∀ (s : State) (a : Nat), (isAddr a = true → readMemory a s = some (s.mem.read a)) ∧
    (isAddr a = false → readMemory a s = none)

/-- R230, R37: construction gives the reset values with the image at the low addresses, executes and decodes nothing; the first
cycle fetches address 0. -/
def Obligations.ConstructionGivesTheResetState : Prop :=
  ∀ P : List Int, (∀ v ∈ P, fitsCell v = true) → (P.length : Int) - 1 ≤ 170141183460469231731687303715884105727 →
    ∃ s, construct P = some s ∧ s.pc = 0 ∧ s.rb = 0 ∧ s.inq = [] ∧ s.out = [] ∧ s.status = .ready ∧ s.cause = none ∧
      (∀ (a : Nat) (h : a < P.length), s.mem.read a = P[a]) ∧ (∀ a : Nat, P.length ≤ a → s.mem.read a = 0) ∧
      (∀ v vs, P = v :: vs → fetchDecode s = decode v)

/-- MODEL'S CHOICE (log 4): the reset state is the construction from the empty image, so that every element has the spec's reset value
and every address reads 0. -/
def Obligations.ResetIsTheEmptyConstruction : Prop :=
  construct [] = some State.reset ∧ State.reset.pc = 0 ∧ State.reset.rb = 0 ∧ State.reset.inq = [] ∧
  State.reset.out = [] ∧ State.reset.status = .ready ∧ State.reset.cause = none ∧
  ∀ a : Nat, State.reset.mem.read a = 0

/-! ### The loader and the assembler -/

/-- R234, R235: `parse` accepts exactly the texts of the grammar, with their values, and refuses every other text with ParseError. -/
def Obligations.ParserAgreesWithTheGrammar : Prop :=
  (∀ (t : List Char) (P : List Int), parse t = .ok P ↔ ProgramText t P) ∧
  (∀ t : List Char, (¬ ∃ P, ProgramText t P) ↔ parse t = .error .parseError)

/-- R236: the examples of the program text format. -/
def Obligations.ProgramTextExamples : Prop :=
  parse "1,0,0,0,99".toList = .ok [1, 0, 0, 0, 99] ∧
  parse "109,1,204,-1,1001,100,1,100,1008,100,16,101,1006,101,0,99".toList =
    .ok [109, 1, 204, -1, 1001, 100, 1, 100, 1008, 100, 16, 101, 1006, 101, 0, 99] ∧
  parse "3,0,4,0,99\n".toList = .ok [3, 0, 4, 0, 99] ∧
  parse "1,two,3".toList = .error .parseError

/-- A line of a mnemonic and operands assembles to the instruction's encoding and the raw parameters, exactly `width` cells (R97 to R100). -/
def Obligations.InstructionLinesAssembleToTheirCells : Prop :=
  ∀ (i : Instr) (ops : List AsmOperand) (ps : List Int), i.wellFormed = true →
    ops.map AsmOperand.mode = i.modes → ops.mapM (AsmOperand.raw []) = some ps →
    (∀ p ∈ ps, fitsCell p = true) → (∀ o ∈ ops, ∃ k, o = .position (.literal k) ∨ o = .immediate (.literal k) ∨
      o = .relativePlus (.literal k) ∨ o = .relativeMinus (.literal k)) →
    assemble [.instr (Instr.mnemonic i).toList ops] = some (encode i :: ps) ∧ (encode i :: ps).length = i.width
end

