-- ==== Sys2Proof/Laws/Decode.lean ====
section
/-! SUPPORT. What each check of the decoder answers, and what each format does when it accepts and when it refuses. -/

namespace Sys2Proof

theorem modeOfDigit_some {d : Nat} {m : Mode} : modeOfDigit d = some m ↔ d = m.digit := by
  constructor
  · intro h
    unfold modeOfDigit at h
    split at h <;> cases h <;> rfl
  · rintro rfl; cases m <;> rfl

theorem modeAt_ok {v i : Nat} {m : Mode} : modeAt v i = .ok m ↔ digit v (i + 1) = m.digit := by
  unfold modeAt
  rw [← modeOfDigit_some]
  split
  · rename_i h; simp [h]
  · rename_i h; simp [h]

theorem modeAt_error {v i : Nat} {c : FaultCause} : modeAt v i = .error c ↔
    2 < digit v (i + 1) ∧ c = .invalidParameterMode v i (digit v (i + 1)) := by
  unfold modeAt
  generalize digit v (i + 1) = d
  rcases d with _ | _ | _ | d <;> simp [modeOfDigit]
  exact eq_comm

theorem noExcessDigits_ok {v n : Nat} {u : Unit} : noExcessDigits v n = .ok u ↔ digitsAbove v (n + 2) = 0 := by
  unfold noExcessDigits Config.strictModeDigits
  by_cases h : digitsAbove v (n + 2) = 0 <;> simp [h]

theorem noExcessDigits_error {v n : Nat} {c : FaultCause} : noExcessDigits v n = .error c ↔
    digitsAbove v (n + 2) ≠ 0 ∧ c = .invalidParameterMode v 0 (digitsAbove v (n + 2)) := by
  unfold noExcessDigits Config.strictModeDigits
  by_cases h : digitsAbove v (n + 2) = 0
  · simp [h]
  · simp [h]; exact eq_comm

theorem destinationAllowed_ok {v i : Nat} {m : Mode} {u : Unit} :
    destinationAllowed v i m = .ok u ↔ m.isDestination = true := by
  unfold destinationAllowed
  cases m.isDestination <;> simp

theorem destinationAllowed_error {v i : Nat} {m : Mode} {c : FaultCause} :
    destinationAllowed v i m = .error c ↔ m = .immediate ∧ c = .invalidDestinationMode v i := by
  unfold destinationAllowed
  cases m <;> simp [Mode.isDestination]
  exact eq_comm

theorem except_bind_ok {ε α β : Type} {x : Except ε α} {f : α → Except ε β} {b : β} :
    (x >>= f) = .ok b ↔ ∃ a, x = .ok a ∧ f a = .ok b := by
  cases x <;> simp [bind, Except.bind]

theorem except_bind_error {ε α β : Type} {x : Except ε α} {f : α → Except ε β} {c : ε} :
    (x >>= f) = .error c ↔ x = .error c ∨ ∃ a, x = .ok a ∧ f a = .error c := by
  cases x <;> simp [bind, Except.bind]

section Formats
variable {v : Nat} {i : Instr} {c : FaultCause}

theorem decodeSSD_ok {mk : Mode → Mode → Mode → Instr} : decodeSSD v mk = .ok i ↔
    ∃ m1 m2 m3, digit v 2 = Mode.digit m1 ∧ digit v 3 = Mode.digit m2 ∧ digit v 4 = Mode.digit m3 ∧
      digitsAbove v 5 = 0 ∧ m3.isDestination = true ∧ mk m1 m2 m3 = i := by
  unfold decodeSSD
  simp [except_bind_ok, modeAt_ok, noExcessDigits_ok, destinationAllowed_ok, pure, Except.pure]

theorem decodeSS_ok {mk : Mode → Mode → Instr} : decodeSS v mk = .ok i ↔
    ∃ m1 m2, digit v 2 = Mode.digit m1 ∧ digit v 3 = Mode.digit m2 ∧ digitsAbove v 4 = 0 ∧ mk m1 m2 = i := by
  unfold decodeSS
  simp [except_bind_ok, modeAt_ok, noExcessDigits_ok, pure, Except.pure]

theorem decodeS_ok {mk : Mode → Instr} : decodeS v mk = .ok i ↔
    ∃ m1, digit v 2 = Mode.digit m1 ∧ digitsAbove v 3 = 0 ∧ mk m1 = i := by
  unfold decodeS
  simp [except_bind_ok, modeAt_ok, noExcessDigits_ok, pure, Except.pure]

theorem decodeD_ok {mk : Mode → Instr} : decodeD v mk = .ok i ↔
    ∃ m1, digit v 2 = Mode.digit m1 ∧ digitsAbove v 3 = 0 ∧ m1.isDestination = true ∧ mk m1 = i := by
  unfold decodeD
  simp [except_bind_ok, modeAt_ok, noExcessDigits_ok, destinationAllowed_ok, pure, Except.pure]

theorem decodeN_ok {j : Instr} : decodeN v j = .ok i ↔ digitsAbove v 2 = 0 ∧ j = i := by
  unfold decodeN
  simp [except_bind_ok, noExcessDigits_ok, pure, Except.pure]

theorem decodeSSD_error {mk : Mode → Mode → Mode → Instr} : decodeSSD v mk = .error c ↔
    modeAt v 1 = .error c ∨ ∃ m1, modeAt v 1 = .ok m1 ∧ (modeAt v 2 = .error c ∨ ∃ m2, modeAt v 2 = .ok m2 ∧
      (modeAt v 3 = .error c ∨ ∃ m3, modeAt v 3 = .ok m3 ∧
        (noExcessDigits v 3 = .error c ∨ ∃ u, noExcessDigits v 3 = .ok u ∧ destinationAllowed v 3 m3 = .error c))) := by
  unfold decodeSSD
  simp only [except_bind_error, pure, Except.pure]; simp

theorem decodeSS_error {mk : Mode → Mode → Instr} : decodeSS v mk = .error c ↔
    modeAt v 1 = .error c ∨ ∃ m1, modeAt v 1 = .ok m1 ∧
      (modeAt v 2 = .error c ∨ ∃ m2, modeAt v 2 = .ok m2 ∧ noExcessDigits v 2 = .error c) := by
  unfold decodeSS
  simp only [except_bind_error, pure, Except.pure]; simp

theorem decodeS_error {mk : Mode → Instr} : decodeS v mk = .error c ↔
    modeAt v 1 = .error c ∨ ∃ m1, modeAt v 1 = .ok m1 ∧ noExcessDigits v 1 = .error c := by
  unfold decodeS
  simp only [except_bind_error, pure, Except.pure]; simp

theorem decodeD_error {mk : Mode → Instr} : decodeD v mk = .error c ↔
    modeAt v 1 = .error c ∨ ∃ m1, modeAt v 1 = .ok m1 ∧
      (noExcessDigits v 1 = .error c ∨ ∃ u, noExcessDigits v 1 = .ok u ∧ destinationAllowed v 1 m1 = .error c) := by
  unfold decodeD
  simp only [except_bind_error, pure, Except.pure]; simp

theorem decodeN_error {j : Instr} : decodeN v j = .error c ↔ noExcessDigits v 0 = .error c := by
  unfold decodeN
  simp only [except_bind_error, pure, Except.pure]; simp

end Formats

theorem nparamsOf_some {c n : Nat} (h : nparamsOf c = some n) :
    (c = 1 ∨ c = 2 ∨ c = 7 ∨ c = 8) ∧ n = 3 ∨ (c = 3 ∨ c = 4 ∨ c = 9) ∧ n = 1 ∨ (c = 5 ∨ c = 6) ∧ n = 2 ∨
      c = 99 ∧ n = 0 := by
  unfold nparamsOf at h
  split at h <;> simp_all

theorem decode_natCast (v : Nat) : decode v = decodeNat v := by
  unfold decode; simp

theorem digit_eq_zero {v k n : Nat} (h : digitsAbove v n = 0) (hk : n ≤ k) : digit v k = 0 := by
  unfold digitsAbove at h
  unfold digit
  have hv : v < 10 ^ n := by
    by_contra hc
    have := Nat.div_pos (Nat.le_of_not_lt hc) (by positivity)
    omega
  rw [Nat.div_eq_of_lt (lt_of_lt_of_le hv (Nat.pow_le_pow_right (by norm_num) hk))]

end Sys2Proof
end

