-- ==== Sys2Proof/Laws/Memory.lean ====
section
/-! SUPPORT. The memory operations: what a read gives after each, and that each keeps the canonical form. -/

namespace Sys2Proof.Machine

@[simp] theorem read_nil (a : Nat) : Mem.read [] a = 0 := rfl

theorem read_cons (b w : _) (m : Mem) (a : Nat) :
    Mem.read ((b, w) :: m) a = if a = b then w else Mem.read m a := rfl

theorem read_erase (m : Mem) (a b : Nat) :
    Mem.read (Mem.erase m a) b = if b = a then 0 else Mem.read m b := by
  induction m with
  | nil => simp [Mem.erase]
  | cons c m ih =>
    obtain ⟨k, w⟩ := c
    by_cases hk : k = a
    · have : Mem.erase ((k, w) :: m) a = Mem.erase m a := by simp [Mem.erase, hk]
      rw [this, ih, read_cons]
      split <;> simp_all
    · have : Mem.erase ((k, w) :: m) a = (k, w) :: Mem.erase m a := by simp [Mem.erase, hk]
      rw [this, read_cons, read_cons, ih]
      split <;> split <;> simp_all

theorem read_insert (m : Mem) (a b : Nat) (v : Int) (h : ∀ c ∈ m, c.1 ≠ a) :
    Mem.read (Mem.insert m a v) b = if b = a then v else Mem.read m b := by
  induction m with
  | nil => simp [Mem.insert, read_cons]
  | cons c m ih =>
    obtain ⟨k, w⟩ := c
    have hk : k ≠ a := h (k, w) (by simp)
    have ih := ih fun c hc => h c (by simp [hc])
    simp only [Mem.insert]
    split
    · simp only [read_cons]
    · simp only [read_cons, ih]
      split <;> split <;> simp_all

theorem mem_erase {m : Mem} {a : Nat} {c : Nat × Int} : c ∈ Mem.erase m a ↔ c ∈ m ∧ c.1 ≠ a := by
  simp [Mem.erase]

theorem mem_insert {m : Mem} {a : Nat} {v : Int} {c : Nat × Int} :
    c ∈ Mem.insert m a v ↔ c = (a, v) ∨ c ∈ m := by
  induction m with
  | nil => simp [Mem.insert]
  | cons d m ih =>
    obtain ⟨k, w⟩ := d
    simp only [Mem.insert]
    split
    · simp
    · simp [ih]; tauto

/-- Every entry of a written memory is the new one or an old one of another address. -/
theorem mem_write {m : Mem} {a : Nat} {v : Int} {c : Nat × Int} (h : c ∈ Mem.write m a v) :
    c = (a, v) ∨ (c ∈ m ∧ c.1 ≠ a) := by
  unfold Mem.write at h
  split at h
  · exact .inr (mem_erase.1 h)
  · rcases mem_insert.1 h with h | h
    · exact .inl h
    · exact .inr (mem_erase.1 h)

theorem pairwise_insert {m : Mem} {a : Nat} {v : Int} (hm : m.Pairwise fun x y => x.1 < y.1)
    (ha : ∀ c ∈ m, c.1 ≠ a) : (Mem.insert m a v).Pairwise fun x y => x.1 < y.1 := by
  induction m with
  | nil => simp [Mem.insert]
  | cons d m ih =>
    obtain ⟨k, w⟩ := d
    rw [List.pairwise_cons] at hm
    have hk : k ≠ a := ha (k, w) (by simp)
    simp only [Mem.insert]
    split
    · rename_i hak
      refine List.pairwise_cons.2 ⟨?_, List.pairwise_cons.2 hm⟩
      intro c hc
      rcases List.mem_cons.1 hc with rfl | hc
      · exact hak
      · exact Nat.lt_trans hak (hm.1 c hc)
    · rename_i hak
      refine List.pairwise_cons.2 ⟨?_, ih hm.2 fun c hc => ha c (by simp [hc])⟩
      intro c hc
      rcases mem_insert.1 hc with rfl | hc
      · show k < a
        omega
      · exact hm.1 c hc

theorem erase_wf {m : Mem} (a : Nat) (h : Mem.wf m) : Mem.wf (Mem.erase m a) :=
  ⟨h.1.sublist List.filter_sublist, fun c hc => h.2 c (mem_erase.1 hc).1⟩

/-- A write keeps the canonical form. -/
theorem write_wf {m : Mem} (a : Nat) (v : Int) (h : Mem.wf m) : Mem.wf (Mem.write m a v) := by
  unfold Mem.write
  split
  · exact erase_wf a h
  · rename_i hv
    refine ⟨pairwise_insert (erase_wf a h).1 fun c hc => (mem_erase.1 hc).2, ?_⟩
    intro c hc
    rcases mem_insert.1 hc with rfl | hc
    · exact hv
    · exact (erase_wf a h).2 c hc

theorem load_addr_le {a : Nat} {P : List Int} {c : Nat × Int} (h : c ∈ Mem.load a P) :
    a ≤ c.1 ∧ c.1 < a + P.length := by
  induction P generalizing a with
  | nil => simp [Mem.load] at h
  | cons v vs ih =>
    simp only [Mem.load] at h
    split at h
    · have := ih h
      simp only [List.length_cons]; omega
    · rcases List.mem_cons.1 h with rfl | h
      · simp
      · have := ih h
        simp only [List.length_cons]; omega

/-- A loaded image reads as its cells, and 0 elsewhere. -/
theorem read_load (P : List Int) (a b : Nat) :
    (Mem.load a P).read b = if a ≤ b then P.getD (b - a) 0 else 0 := by
  induction P generalizing a with
  | nil => simp [Mem.load]
  | cons v vs ih =>
    have hs : a + 1 ≤ b → b - a = (b - (a + 1)) + 1 := by omega
    simp only [Mem.load]
    rcases Nat.lt_trichotomy b a with h | rfl | h
    · split
      · rw [ih, if_neg (by omega), if_neg (by omega)]
      · rw [read_cons, if_neg (by omega), ih, if_neg (by omega), if_neg (by omega)]
    · split
      · rename_i hv; rw [ih, if_neg (by omega), hv]; simp
      · rw [read_cons]; simp
    · split
      · rw [ih, if_pos (by omega), if_pos (by omega), hs h]; simp
      · rw [read_cons, if_neg (by omega), ih, if_pos (by omega), if_pos (by omega), hs h]; simp

/-- A loaded image is in the canonical form. -/
theorem load_wf (a : Nat) (P : List Int) : Mem.wf (Mem.load a P) := by
  induction P generalizing a with
  | nil => exact ⟨List.Pairwise.nil, by simp [Mem.load]⟩
  | cons v vs ih =>
    simp only [Mem.load]
    split
    · exact ih (a + 1)
    · rename_i hv
      refine ⟨List.pairwise_cons.2 ⟨fun c hc => (load_addr_le hc).1, (ih (a + 1)).1⟩, ?_⟩
      intro c hc
      rcases List.mem_cons.1 hc with rfl | hc
      · exact hv
      · exact (ih (a + 1)).2 c hc

/-- Storing a program's cells keeps the canonical form. -/
theorem storeCells_wf {m : Mem} (a : Nat) (vs : List Int) (h : Mem.wf m) : Mem.wf (storeCells m a vs) := by
  induction vs generalizing m a with
  | nil => exact h
  | cons v vs ih =>
    simp only [storeCells]
    split
    · exact ih (a + 1) (write_wf a v h)
    · exact ih (a + 1) h

end Sys2Proof.Machine
end

