-- ==== Sys2Proof/Laws/HostOps.lean ====
section
/-! SUPPORT. Everything the host's operations on a core can answer. -/

namespace Sys2Proof.Machine

theorem construct_some {P : List Int} {s : State} (h : construct P = some s) :
    (∀ v ∈ P, fitsCell v = true) ∧ (P = [] ∨ isAddr ((P.length : Int) - 1) = true) ∧
      s = { State.reset with mem := Mem.load 0 P } := by
  unfold construct at h
  split at h
  · rename_i hp
    simp only [Bool.and_eq_true, List.all_eq_true, Bool.or_eq_true, List.isEmpty_iff] at hp
    cases h
    exact ⟨hp.1, hp.2, rfl⟩
  · cases h

theorem enqueueInput_some {s t : State} {v : Int} (h : enqueueInput v s = some t) :
    fitsCell v = true ∧ t = { s with inq := s.inq ++ [v] } := by
  unfold enqueueInput at h
  split at h
  · cases h; exact ⟨‹_›, rfl⟩
  · cases h

end Sys2Proof.Machine
end

