-- ==== Sys2Proof/Laws/Loader.lean ====
section
/-! SUPPORT. The loader's pieces: numerals and tokens, cutting at a comma, dropping the trailing blanks. -/

namespace Sys2Proof.Machine

theorem digitValue_some {c : Char} {d : Nat} :
    digitValue c = some d ↔ ('0' ≤ c ∧ c ≤ '9') ∧ d = c.toNat - '0'.toNat := by
  unfold digitValue
  split
  · rename_i h; simp at h; simp [h, eq_comm]
  · rename_i h; simp at h; simp; intro h1 h2; exact absurd h2 (not_le.2 (h h1))

theorem parseDigits_some {cs : List Char} {acc n : Nat} : parseDigits acc cs = some n ↔
    (∀ c ∈ cs, '0' ≤ c ∧ c ≤ '9') ∧ n = cs.foldl (fun n c => 10 * n + (c.toNat - '0'.toNat)) acc := by
  induction cs generalizing acc with
  | nil => simp [parseDigits, eq_comm]
  | cons c cs ih =>
    unfold parseDigits
    split
    · rename_i d hd
      obtain ⟨h1, rfl⟩ := digitValue_some.1 hd
      rw [ih]; simp [h1]
    · rename_i hd
      simp
      intro h1 h2
      have := digitValue_some.2 ⟨⟨h1,h2⟩, rfl⟩
      rw [hd] at this; cases this

theorem parseNumeral_some {cs : List Char} {n : Nat} : parseNumeral cs = some n ↔
    cs ≠ [] ∧ (∀ c ∈ cs, '0' ≤ c ∧ c ≤ '9') ∧ n = numeralValue cs := by
  cases cs with
  | nil => simp [parseNumeral]
  | cons c cs => simp only [parseNumeral, parseDigits_some]; simp [numeralValue]

theorem parseInteger_some {cs : List Char} {v : Int} : parseInteger cs = some v ↔ TokenText cs v := by
  constructor
  · intro h
    unfold parseInteger at h
    split at h
    · rename_i cs
      rw [Option.map_eq_some_iff] at h
      obtain ⟨n, hn, rfl⟩ := h
      obtain ⟨a, b, rfl⟩ := parseNumeral_some.1 hn
      exact .negated a b
    · rw [Option.map_eq_some_iff] at h
      obtain ⟨n, hn, rfl⟩ := h
      obtain ⟨a, b, rfl⟩ := parseNumeral_some.1 hn
      exact .plain a b
  · intro h
    cases h with
    | plain a b =>
      unfold parseInteger
      split
      · rename_i cs
        have := (b '-' (by simp)).1
        exact absurd this (by decide)
      · rw [parseNumeral_some.2 ⟨a, b, rfl⟩]; rfl
    | negated a b => simp only [parseInteger]; rw [parseNumeral_some.2 ⟨a, b, rfl⟩]; rfl

/-- No character of a token is a comma or a blank. -/
theorem tokenText_chars {tok : List Char} {v : Int} (h : TokenText tok v) :
    tok ≠ [] ∧ ∀ c ∈ tok, c ≠ ',' ∧ isTrailing c = false := by
  have key : ∀ c : Char, '0' ≤ c ∧ c ≤ '9' → c ≠ ',' ∧ isTrailing c = false := by
    intro c ⟨h1, h2⟩
    have : c ≠ ',' := by rintro rfl; exact absurd h1 (by decide)
    refine ⟨this, ?_⟩
    unfold isTrailing
    have a1 : c ≠ ' ' := by rintro rfl; exact absurd h1 (by decide)
    have a2 : c ≠ '\t' := by rintro rfl; exact absurd h1 (by decide)
    have a3 : c ≠ '\r' := by rintro rfl; exact absurd h1 (by decide)
    have a4 : c ≠ '\n' := by rintro rfl; exact absurd h1 (by decide)
    simp [*]
  cases h with
  | plain a b => exact ⟨a, fun c hc => key c (b c hc)⟩
  | negated a b =>
    refine ⟨by simp, fun c hc => ?_⟩
    rcases List.mem_cons.1 hc with rfl | hc
    · decide
    · exact key c (b c hc)

theorem splitAt_of_not_mem {tok : List Char} (h : ',' ∉ tok) : splitAt ',' tok = [tok] := by
  induction tok with
  | nil => rfl
  | cons c cs ih =>
    simp at h
    simp [splitAt, Ne.symm h.1, ih h.2]

theorem splitAt_append_cons {tok rest : List Char} (h : ',' ∉ tok) :
    splitAt ',' (tok ++ ',' :: rest) = tok :: splitAt ',' rest := by
  induction tok with
  | nil => simp [splitAt]
  | cons c cs ih =>
    simp at h
    simp [splitAt, Ne.symm h.1, ih h.2]

theorem splitAt_ne_nil (u : List Char) : splitAt ',' u ≠ [] := by
  cases u with
  | nil => simp [splitAt]
  | cons c cs => unfold splitAt; split; simp; split <;> simp

/-- The first piece is the whole text, or ends at a separator. -/
theorem splitAt_cons {u : List Char} {t : List Char} {ts : List (List Char)} (h : splitAt ',' u = t :: ts) :
    ts = [] ∧ u = t ∨ ∃ rest, u = t ++ ',' :: rest ∧ ts = splitAt ',' rest := by
  induction u generalizing t ts with
  | nil => simp [splitAt] at h; simp [h]
  | cons c cs ih =>
    unfold splitAt at h
    split at h
    · rename_i hc; subst hc; cases h; right; exact ⟨cs, rfl, rfl⟩
    · split at h
      · rename_i t' ts' hs
        cases h
        rcases ih hs with ⟨rfl, rfl⟩ | ⟨rest, rfl, rfl⟩
        · left; simp
        · right; exact ⟨rest, by simp, rfl⟩
      · rename_i hs; exact absurd hs (splitAt_ne_nil cs)

theorem dropTrailing_append {tok blanks : List Char} (hb : ∀ c ∈ blanks, isTrailing c = true)
    (ht : ∀ c ∈ tok, isTrailing c = false) :
    dropTrailing (tok ++ blanks) = tok := by
  unfold dropTrailing
  rw [List.reverse_append, List.dropWhile_append_of_pos (by simpa using hb)]
  have : tok.reverse.dropWhile isTrailing = tok.reverse := by
    rw [List.dropWhile_eq_self_iff]
    intro h
    rw [ht _ (by rw [← List.mem_reverse]; exact List.getElem_mem _)]
    simp
  rw [this, List.reverse_reverse]

theorem dropTrailing_append_cons {xs rest : List Char} :
    dropTrailing (xs ++ ',' :: rest) = xs ++ ',' :: dropTrailing rest := by
  unfold dropTrailing
  rw [show xs ++ ',' :: rest = (xs ++ [',']) ++ rest by simp, List.reverse_append, List.dropWhile_append]
  split
  · rename_i h
    have h : List.dropWhile isTrailing rest.reverse = [] := by simpa using h
    rw [h]
    simp [isTrailing]
  · simp

/-- What is dropped is blank. -/
theorem dropTrailing_split (t : List Char) : ∃ blanks, t = dropTrailing t ++ blanks ∧ ∀ c ∈ blanks, isTrailing c = true := by
  refine ⟨(t.reverse.takeWhile isTrailing).reverse, ?_, ?_⟩
  · unfold dropTrailing
    rw [← List.reverse_append, List.takeWhile_append_dropWhile, List.reverse_reverse]
  · intro c hc
    rw [List.mem_reverse] at hc
    exact List.mem_takeWhile_imp hc

theorem isTrailing_iff (c : Char) : isTrailing c = true ↔ c ∈ [' ', '\t', '\r', '\n'] := by
  simp [isTrailing]; tauto

theorem parseToken_some {tok : List Char} {v : Int} :
    parseToken tok = some v ↔ TokenText tok v ∧ fitsCell v = true := by
  unfold parseToken
  rw [← parseInteger_some]
  split
  · rename_i w hw
    rw [hw]
    split
    · rename_i hf; simp; rintro rfl; exact hf
    · rename_i hf; simp; rintro rfl; simpa using hf
  · rename_i hw; simp [hw]

end Sys2Proof.Machine
end

