-- ==== Sys2Proof/Laws/State.lean ====
section
/-! SUPPORT. One lemma per field and update of the state. -/

namespace Sys2Proof.Machine

section FaultEntry
variable (c : FaultCause) (s : State)

@[simp] theorem faultEntry_pc : (faultEntry c s).pc = s.pc := rfl
@[simp] theorem faultEntry_rb : (faultEntry c s).rb = s.rb := rfl
@[simp] theorem faultEntry_mem : (faultEntry c s).mem = s.mem := rfl
@[simp] theorem faultEntry_inq : (faultEntry c s).inq = s.inq := rfl
@[simp] theorem faultEntry_out : (faultEntry c s).out = s.out := rfl
@[simp] theorem faultEntry_status : (faultEntry c s).status = .faulted := rfl
@[simp] theorem faultEntry_cause : (faultEntry c s).cause = some c := rfl

end FaultEntry

section Commit
variable (u : Update) (s : State)

@[simp] theorem commit_pc : (commit u s).pc = (match u.nextPc with | some t => t.toNat | none => s.pc) := rfl
@[simp] theorem commit_rb : (commit u s).rb = (match u.newRb with | some v => v | none => s.rb) := rfl
@[simp] theorem commit_mem :
    (commit u s).mem = (match u.memWrite with | some (a, v) => s.mem.write a v | none => s.mem) := rfl
@[simp] theorem commit_inq : (commit u s).inq = if u.popInput then s.inq.tail else s.inq := rfl
@[simp] theorem commit_out :
    (commit u s).out = (match u.pushOutput with | some v => s.out ++ [v] | none => s.out) := rfl
@[simp] theorem commit_status : (commit u s).status = if u.halt then .halted else s.status := rfl
@[simp] theorem commit_cause : (commit u s).cause = s.cause := rfl

end Commit

@[simp] theorem reset_pc : State.reset.pc = 0 := rfl
@[simp] theorem reset_rb : State.reset.rb = 0 := rfl
@[simp] theorem reset_mem : State.reset.mem = [] := rfl
@[simp] theorem reset_inq : State.reset.inq = [] := rfl
@[simp] theorem reset_out : State.reset.out = [] := rfl
@[simp] theorem reset_status : State.reset.status = .ready := rfl
@[simp] theorem reset_cause : State.reset.cause = none := rfl

end Sys2Proof.Machine
end

