-- ==== Sys2Proof/Laws/Ops.lean ====
section
/-! SUPPORT. The range checks as inequalities, and everything the end of a cycle can do. -/

namespace Sys2Proof.Machine

/-- `fits_cell` is the inequality of R8, for every width. -/
theorem fitsCellOf_iff (w : Nat) (v : Int) :
    fitsCellOf (some w) v = true ↔ -((2 ^ (w - 1) : Nat) : Int) ≤ v ∧ v ≤ ((2 ^ (w - 1) : Nat) : Int) - 1 := by
  have h : 0 < 2 ^ (w - 1) := Nat.two_pow_pos _
  cases v with
  | ofNat n =>
    simp only [fitsCellOf, withinBound, Config.cellMaxOf, Option.map, decide_eq_true_eq, Int.ofNat_eq_natCast]
    generalize 2 ^ (w - 1) = b at *
    omega
  | negSucc n =>
    simp only [fitsCellOf, withinBound, Config.cellMaxOf, Option.map, decide_eq_true_eq, Int.negSucc_eq]
    generalize 2 ^ (w - 1) = b at *
    omega

/-- The cell range of this hardware (00_scope.md R8). -/
theorem fitsCell_iff (v : Int) : fitsCell v = true ↔
    -170141183460469231731687303715884105728 ≤ v ∧ v ≤ 170141183460469231731687303715884105727 :=
  fitsCellOf_iff 128 v

/-- The address range of this hardware (R8). -/
theorem isAddr_iff (a : Int) : isAddr a = true ↔ 0 ≤ a ∧ a ≤ 170141183460469231731687303715884105727 := by
  cases a with
  | ofNat n =>
    have : isAddr (.ofNat n) = decide (n ≤ 170141183460469231731687303715884105727) := rfl
    rw [this, decide_eq_true_eq, Int.ofNat_eq_natCast]; omega
  | negSucc n =>
    refine iff_of_false (Bool.false_ne_true ∘ id) fun h => ?_
    have := h.1
    rw [Int.negSucc_eq] at this; omega

theorem isAddr_fitsCell {a : Int} (h : isAddr a = true) : fitsCell a = true := by
  rw [isAddr_iff] at h; rw [fitsCell_iff]; omega

/-- With width `inf` every integer is a cell (R8). -/
theorem fitsCellOf_inf (v : Int) : fitsCellOf none v = true := by cases v <;> rfl

theorem memRead_ok {s : State} {a : Int} {v : Int} (h : memRead s a = .ok v) :
    isAddr a = true ∧ v = s.mem.read a.toNat := by
  unfold memRead at h
  split at h
  · cases h; exact ⟨‹_›, rfl⟩
  · cases h

theorem checkCell_ok {x : Option Int} : checkCell x = .ok () ↔ ∀ v, x = some v → fitsCell v = true := by
  cases x with
  | none => simp [checkCell]
  | some v => simp only [checkCell]; split <;> simp_all

theorem checkNextPc_ok {x : Option Int} : checkNextPc x = .ok () ↔ ∀ a, x = some a → isAddr a = true := by
  cases x with
  | none => simp [checkNextPc]
  | some a => simp only [checkNextPc]; split <;> simp_all

/-- The checks of phase 5 pass exactly when every new value is in its range. -/
theorem checkUpdate_ok {u : Update} : checkUpdate u = .ok () ↔
    (∀ v, u.memWrite.map (·.2) = some v → fitsCell v = true) ∧ (∀ v, u.newRb = some v → fitsCell v = true) ∧
      (∀ t, u.nextPc = some t → isAddr t = true) := by
  rw [← checkCell_ok, ← checkCell_ok, ← checkNextPc_ok]
  unfold checkUpdate
  cases checkCell (u.memWrite.map (·.2)) <;> simp [bind, Except.bind]
  cases checkCell u.newRb <;> simp

/-- Everything the end of a cycle can do when it answers a next state. -/
theorem settle_next {s t : State} {x : Except Abort Update} {r : Result} (h : settle s x = .next (r, t)) :
    (∃ c, x = .error (.raised c) ∧ r = .fault c ∧ t = faultEntry c s) ∨
    (∃ u, x = .ok u ∧ u.result = .needMoreInput ∧ r = .needMoreInput ∧ t = s) ∨
    (∃ u c, x = .ok u ∧ u.result ≠ .needMoreInput ∧ checkUpdate u = .error c ∧ r = .fault c ∧ t = faultEntry c s) ∨
    (∃ u, x = .ok u ∧ u.result ≠ .needMoreInput ∧ checkUpdate u = .ok () ∧ r = u.result ∧ t = commit u s) := by
  unfold settle at h
  split at h
  · cases h; exact .inl ⟨_, rfl, rfl, rfl⟩
  · cases h
  · rename_i u
    split at h
    · cases h; exact .inr (.inl ⟨u, rfl, ‹_›, rfl, rfl⟩)
    · split at h
      · cases h; exact .inr (.inr (.inl ⟨u, _, rfl, ‹_›, ‹_›, rfl, rfl⟩))
      · cases h; exact .inr (.inr (.inr ⟨u, rfl, ‹_›, ‹_›, rfl, rfl⟩))

theorem stateOf_next {o : Host.Outcome (Result × State) Fault Refusal} {t : State} :
    stateOf o = .next t ↔ ∃ r, o = .next (r, t) := by
  unfold stateOf
  split <;> simp_all

end Sys2Proof.Machine
end

