-- ==== Sys2Proof/Laws/Operands.lean ====
section
/-! SUPPORT. What the operand resolver can answer. -/

namespace Sys2Proof.Machine

theorem asAddr_ok {a : Int} {d : Nat} : asAddr a = .ok d ↔ isAddr a = true ∧ d = a.toNat := by
  unfold asAddr
  cases h : isAddr a
  · simp
  · simp only [if_true, Except.ok.injEq, true_and]; exact eq_comm

theorem dstAddr_ok {s : State} {p : Int} {m : Mode} {d : Nat} (h : dstAddr s p m = .ok d) :
    isAddr d = true := by
  have key : ∀ a : Int, asAddr a = .ok d → isAddr d = true := by
    intro a h
    obtain ⟨ha, hd⟩ := asAddr_ok.1 h
    rwa [hd, Int.toNat_of_nonneg ((isAddr_iff a).1 ha).1]
  cases m with
  | position => exact key _ h
  | immediate => cases h
  | relative => exact key _ h

theorem raising_ok {α : Type} {x : Except FaultCause α} {a : α} : raising x = .ok a ↔ x = .ok a := by
  cases x <;> simp [raising]

theorem raising_error {α : Type} {x : Except FaultCause α} {e : Abort} :
    raising x = .error e ↔ ∃ c, x = .error c ∧ e = .raised c := by
  cases x <;> simp [raising, eq_comm]

theorem srcOperand_of_param {s : State} {i : Nat} {p : Int} (h : param s i = .ok p) (m : Mode) :
    srcOperand s i m = raising (srcValue s p m) := by
  unfold srcOperand; rw [h]; rfl

theorem dstOperand_of_param {s : State} {i : Nat} {p : Int} (h : param s i = .ok p) (m : Mode) :
    dstOperand s i m = dstAddr s p m := by
  unfold dstOperand; rw [h]; rfl

theorem srcOperand_param_error {s : State} {i : Nat} {c : FaultCause} (h : param s i = .error c) (m : Mode) :
    srcOperand s i m = .error (.raised c) := by
  unfold srcOperand; rw [h]; rfl

theorem dstOperand_param_error {s : State} {i : Nat} {c : FaultCause} (h : param s i = .error c) (m : Mode) :
    dstOperand s i m = .error (.raised c) := by
  unfold dstOperand; rw [h]; rfl

/-- A resolved source is what its mode makes of its parameter. -/
theorem srcOperand_ok {s : State} {i : Nat} {m : Mode} {a : Int} :
    srcOperand s i m = .ok a ↔ ∃ p, param s i = .ok p ∧ srcValue s p m = .ok a := by
  rcases h : param s i with c | p
  · rw [srcOperand_param_error h]; simp
  · rw [srcOperand_of_param h, raising_ok]; simp

theorem dstOperand_ok {s : State} {i : Nat} {m : Mode} {d : Nat} :
    dstOperand s i m = .ok d ↔ ∃ p, param s i = .ok p ∧ dstAddr s p m = .ok d := by
  rcases h : param s i with c | p
  · rw [dstOperand_param_error h]; simp
  · rw [dstOperand_of_param h]; simp

theorem dstOperand_isAddr {s : State} {i : Nat} {m : Mode} {d : Nat} (h : dstOperand s i m = .ok d) :
    isAddr d = true := by
  obtain ⟨p, -, h⟩ := dstOperand_ok.1 h
  exact dstAddr_ok h

/-- A source is never stuck: every mode of a source is defined. -/
theorem srcOperand_error {s : State} {i : Nat} {m : Mode} {e : Abort} (h : srcOperand s i m = .error e) :
    ∃ c, e = .raised c := by
  rcases hp : param s i with c | p
  · rw [srcOperand_param_error hp] at h; cases h; exact ⟨_, rfl⟩
  · rw [srcOperand_of_param hp, raising_error] at h
    obtain ⟨c, -, rfl⟩ := h; exact ⟨_, rfl⟩

theorem asAddr_error {a : Int} {e : Abort} (h : asAddr a = .error e) : e = .raised (.invalidAddress a) := by
  unfold asAddr at h
  split at h
  · cases h
  · cases h; rfl

/-- A destination is stuck only in the mode Immediate. -/
theorem dstOperand_error {s : State} {i : Nat} {m : Mode} {e : Abort} (hm : m.isDestination = true)
    (h : dstOperand s i m = .error e) : ∃ c, e = .raised c := by
  rcases hp : param s i with c | p
  · rw [dstOperand_param_error hp] at h; cases h; exact ⟨_, rfl⟩
  · rw [dstOperand_of_param hp] at h
    cases m with
    | position => exact ⟨_, asAddr_error h⟩
    | immediate => cases hm
    | relative => exact ⟨_, asAddr_error h⟩

theorem operandsSSD_eq (s : State) (m1 m2 m3 : Mode) :
    operandsSSD s m1 m2 m3 = (srcOperand s 1 m1).bind fun a => (srcOperand s 2 m2).bind fun b =>
      (dstOperand s 3 m3).bind fun d => .ok (a, b, d) := rfl

theorem operandsSS_eq (s : State) (m1 m2 : Mode) :
    operandsSS s m1 m2 = (srcOperand s 1 m1).bind fun a => (srcOperand s 2 m2).bind fun b => .ok (a, b) := rfl

theorem operandsSSD_ok {s : State} {m1 m2 m3 : Mode} {a b : Int} {d : Nat} :
    operandsSSD s m1 m2 m3 = .ok (a, b, d) ↔
      srcOperand s 1 m1 = .ok a ∧ srcOperand s 2 m2 = .ok b ∧ dstOperand s 3 m3 = .ok d := by
  rw [operandsSSD_eq]
  rcases srcOperand s 1 m1 with _ | _
  · simp [Except.bind]
  rcases srcOperand s 2 m2 with _ | _
  · simp [Except.bind]
  rcases dstOperand s 3 m3 with _ | _ <;> simp [Except.bind]

theorem operandsSS_ok {s : State} {m1 m2 : Mode} {a b : Int} :
    operandsSS s m1 m2 = .ok (a, b) ↔ srcOperand s 1 m1 = .ok a ∧ srcOperand s 2 m2 = .ok b := by
  rw [operandsSS_eq]
  rcases srcOperand s 1 m1 with _ | _
  · simp [Except.bind]
  rcases srcOperand s 2 m2 with _ | _ <;> simp [Except.bind]

/-- With a destination mode the operands of format SSD resolve, or the cycle faults. -/
theorem operandsSSD_error {s : State} {m1 m2 m3 : Mode} {e : Abort} (hm : m3.isDestination = true)
    (h : operandsSSD s m1 m2 m3 = .error e) : ∃ c, e = .raised c := by
  rw [operandsSSD_eq] at h
  rcases h1 : srcOperand s 1 m1 with e1 | a <;> rw [h1] at h
  · cases h; exact srcOperand_error h1
  rcases h2 : srcOperand s 2 m2 with e2 | b <;> rw [h2] at h
  · cases h; exact srcOperand_error h2
  rcases h3 : dstOperand s 3 m3 with e3 | d <;> rw [h3] at h
  · cases h; exact dstOperand_error hm h3
  · cases h

theorem operandsSS_error {s : State} {m1 m2 : Mode} {e : Abort}
    (h : operandsSS s m1 m2 = .error e) : ∃ c, e = .raised c := by
  rw [operandsSS_eq] at h
  rcases h1 : srcOperand s 1 m1 with e1 | a <;> rw [h1] at h
  · cases h; exact srcOperand_error h1
  rcases h2 : srcOperand s 2 m2 with e2 | b <;> rw [h2] at h
  · cases h; exact srcOperand_error h2
  · cases h

end Sys2Proof.Machine
end

