-- ==== Sys2Proof/Laws/PerInstr.lean ====
section
/-! SUPPORT. A statement about every instruction as syntax, one lemma per constructor. -/

namespace Sys2Proof.Laws.EncodingFields

/-- The cell that encodes an instruction carries its opcode below and its modes above, its parameter count is its opcode's, and it takes
one to four cells (30_encoding.md R80, R83, R97). -/
def Statement (i : Instr) : Prop :=
  (encode i).toNat % 100 = i.code ∧
  nparamsOf i.code = some i.nparams ∧
  1 ≤ i.width ∧ i.width ≤ 4 ∧
  (i.modes.map Mode.digit = (List.range i.nparams).map fun k => digit (encode i).toNat (k + 2)) ∧
  digitsAbove (encode i).toNat (i.nparams + 2) = 0

theorem add (m1 m2 m3 : Mode) : Statement (.add m1 m2 m3) := by
  cases m1 <;> cases m2 <;> cases m3 <;> (unfold Statement; decide)

theorem mul (m1 m2 m3 : Mode) : Statement (.mul m1 m2 m3) := by
  cases m1 <;> cases m2 <;> cases m3 <;> (unfold Statement; decide)

theorem input (m1 : Mode) : Statement (.input m1) := by
  cases m1 <;> (unfold Statement; decide)

theorem output (m1 : Mode) : Statement (.output m1) := by
  cases m1 <;> (unfold Statement; decide)

theorem jumpIfTrue (m1 m2 : Mode) : Statement (.jumpIfTrue m1 m2) := by
  cases m1 <;> cases m2 <;> (unfold Statement; decide)

theorem jumpIfFalse (m1 m2 : Mode) : Statement (.jumpIfFalse m1 m2) := by
  cases m1 <;> cases m2 <;> (unfold Statement; decide)

theorem lessThan (m1 m2 m3 : Mode) : Statement (.lessThan m1 m2 m3) := by
  cases m1 <;> cases m2 <;> cases m3 <;> (unfold Statement; decide)

theorem equals (m1 m2 m3 : Mode) : Statement (.equals m1 m2 m3) := by
  cases m1 <;> cases m2 <;> cases m3 <;> (unfold Statement; decide)

theorem adjustRelativeBase (m1 : Mode) : Statement (.adjustRelativeBase m1) := by
  cases m1 <;> (unfold Statement; decide)

theorem halt : Statement .halt := by
  unfold Statement; decide

end Sys2Proof.Laws.EncodingFields
end

