-- ==== Sys2Proof/Laws/Step.lean ====
section
/-! SUPPORT. `exec` and `step` are the instruction cycle without its result; everything a cycle can do. -/

namespace Sys2Proof.Machine

/-- Every arm of `exec` settles the cycle of its instruction. -/
theorem exec_eq (i : Instr) (s : State) : exec i s = stateOf (settle s (instrCycle i s)) := by
  cases i <;> rfl

/-- A step is a cycle without its result (log 7). -/
theorem step_eq (s : State) : step s = stateOf (cycle s) := by
  unfold step cycle
  cases s.status with
  | ready => cases fetchDecode s with
    | error c => rfl
    | ok i => exact exec_eq i s
  | halted => rfl
  | faulted => rfl

theorem step_next {s t : State} : step s = .next t ↔ ∃ r, cycle s = .next (r, t) := by
  rw [step_eq, stateOf_next]

/-! ### The end of a cycle -/

theorem checkUpdate_eq (u : Update) : checkUpdate u =
    (checkCell (u.memWrite.map (·.2))).bind fun _ => (checkCell u.newRb).bind fun _ => checkNextPc u.nextPc := rfl

theorem checkCell_of_fits {v : Int} (h : fitsCell v = true) : checkCell (some v) = .ok () := by
  simp [checkCell, h]

theorem checkCell_of_not_fits {v : Int} (h : fitsCell v = false) :
    checkCell (some v) = .error (.arithmeticOverflow v) := by
  simp [checkCell, h]

theorem checkNextPc_of_isAddr {a : Int} (h : isAddr a = true) : checkNextPc (some a) = .ok () := by
  simp [checkNextPc, h]

theorem checkNextPc_of_not_isAddr {a : Int} (h : isAddr a = false) :
    checkNextPc (some a) = .error (.invalidAddress a) := by
  simp [checkNextPc, h]

section
variable {i : Instr} {s : State} {u : Update} {c : FaultCause}

theorem settle_of_ok (hr : u.result ≠ .needMoreInput) (hc : checkUpdate u = .ok ()) :
    settle s (.ok u) = .next (u.result, commit u s) := by
  unfold settle; simp only [hr, if_false, hc]

theorem exec_of_raised (h : instrCycle i s = .error (.raised c)) : exec i s = .next (faultEntry c s) := by
  rw [exec_eq, h]; rfl

theorem exec_of_ok (h : instrCycle i s = .ok u) (hr : u.result ≠ .needMoreInput) (hc : checkUpdate u = .ok ()) :
    exec i s = .next (commit u s) := by
  rw [exec_eq, h, settle_of_ok hr hc]; rfl

theorem exec_of_check_error (h : instrCycle i s = .ok u) (hr : u.result ≠ .needMoreInput)
    (hc : checkUpdate u = .error c) : exec i s = .next (faultEntry c s) := by
  rw [exec_eq, h]; unfold settle; simp only [hr, if_false, hc]; rfl

end

/-! ### What an instruction computes -/

/-- The update of each instruction is made from its resolved operands. -/
theorem instrCycle_ok {i : Instr} {s : State} {u : Update} (h : instrCycle i s = .ok u) :
    match i with
    | .add m1 m2 m3 => ∃ a b d, operandsSSD s m1 m2 m3 = .ok (a, b, d) ∧ u = addUpdate a b d s.pc
    | .mul m1 m2 m3 => ∃ a b d, operandsSSD s m1 m2 m3 = .ok (a, b, d) ∧ u = mulUpdate a b d s.pc
    | .lessThan m1 m2 m3 => ∃ a b d, operandsSSD s m1 m2 m3 = .ok (a, b, d) ∧ u = lessThanUpdate a b d s.pc
    | .equals m1 m2 m3 => ∃ a b d, operandsSSD s m1 m2 m3 = .ok (a, b, d) ∧ u = equalsUpdate a b d s.pc
    | .jumpIfTrue m1 m2 => ∃ a b, operandsSS s m1 m2 = .ok (a, b) ∧ u = jumpIfTrueUpdate a b s.pc
    | .jumpIfFalse m1 m2 => ∃ a b, operandsSS s m1 m2 = .ok (a, b) ∧ u = jumpIfFalseUpdate a b s.pc
    | .output m1 => ∃ a, srcOperand s 1 m1 = .ok a ∧ u = outputUpdate a s.pc
    | .adjustRelativeBase m1 => ∃ a, srcOperand s 1 m1 = .ok a ∧ u = adjustRelativeBaseUpdate a s.rb s.pc
    | .input m1 => ∃ d, dstOperand s 1 m1 = .ok d ∧ u = inputUpdate d s.inq s.pc
    | .halt => u = haltUpdate := by
  cases i with
  | add m1 m2 m3 =>
    simp only [instrCycle, addCycle] at h
    rcases ho : operandsSSD s m1 m2 m3 with e | ⟨a, b, d⟩ <;> rw [ho] at h <;> cases h
    exact ⟨a, b, d, ho, rfl⟩
  | mul m1 m2 m3 =>
    simp only [instrCycle, mulCycle] at h
    rcases ho : operandsSSD s m1 m2 m3 with e | ⟨a, b, d⟩ <;> rw [ho] at h <;> cases h
    exact ⟨a, b, d, ho, rfl⟩
  | lessThan m1 m2 m3 =>
    simp only [instrCycle, lessThanCycle] at h
    rcases ho : operandsSSD s m1 m2 m3 with e | ⟨a, b, d⟩ <;> rw [ho] at h <;> cases h
    exact ⟨a, b, d, ho, rfl⟩
  | equals m1 m2 m3 =>
    simp only [instrCycle, equalsCycle] at h
    rcases ho : operandsSSD s m1 m2 m3 with e | ⟨a, b, d⟩ <;> rw [ho] at h <;> cases h
    exact ⟨a, b, d, ho, rfl⟩
  | jumpIfTrue m1 m2 =>
    simp only [instrCycle, jumpIfTrueCycle] at h
    rcases ho : operandsSS s m1 m2 with e | ⟨a, b⟩ <;> rw [ho] at h <;> cases h
    exact ⟨a, b, ho, rfl⟩
  | jumpIfFalse m1 m2 =>
    simp only [instrCycle, jumpIfFalseCycle] at h
    rcases ho : operandsSS s m1 m2 with e | ⟨a, b⟩ <;> rw [ho] at h <;> cases h
    exact ⟨a, b, ho, rfl⟩
  | output m1 =>
    simp only [instrCycle, outputCycle] at h
    rcases ho : srcOperand s 1 m1 with e | a <;> rw [ho] at h <;> cases h
    exact ⟨a, ho, rfl⟩
  | adjustRelativeBase m1 =>
    simp only [instrCycle, adjustRelativeBaseCycle] at h
    rcases ho : srcOperand s 1 m1 with e | a <;> rw [ho] at h <;> cases h
    exact ⟨a, ho, rfl⟩
  | input m1 =>
    simp only [instrCycle, inputCycle] at h
    rcases ho : dstOperand s 1 m1 with e | d <;> rw [ho] at h <;> cases h
    exact ⟨d, ho, rfl⟩
  | halt => cases h; rfl

/-- `NeedMoreInput` is computed by IN on an empty queue, and by nothing else (42_io.md R151). -/
theorem instrCycle_wait {i : Instr} {s : State} {u : Update} (h : instrCycle i s = .ok u)
    (hr : u.result = .needMoreInput) : s.inq = [] ∧ ∃ m d, i = .input m ∧ dstOperand s 1 m = .ok d := by
  have hu := instrCycle_ok h
  cases i with
  | input m1 =>
    obtain ⟨d, ho, rfl⟩ := hu
    refine ⟨?_, m1, d, rfl, ho⟩
    cases hq : s.inq with
    | nil => rfl
    | cons v q => rw [hq] at hr; cases hr
  | add m1 m2 m3 => obtain ⟨a, b, d, -, rfl⟩ := hu; cases hr
  | mul m1 m2 m3 => obtain ⟨a, b, d, -, rfl⟩ := hu; cases hr
  | lessThan m1 m2 m3 => obtain ⟨a, b, d, -, rfl⟩ := hu; cases hr
  | equals m1 m2 m3 => obtain ⟨a, b, d, -, rfl⟩ := hu; cases hr
  | jumpIfTrue m1 m2 => obtain ⟨a, b, -, rfl⟩ := hu; cases hr
  | jumpIfFalse m1 m2 => obtain ⟨a, b, -, rfl⟩ := hu; cases hr
  | output m1 => obtain ⟨a, -, rfl⟩ := hu; cases hr
  | adjustRelativeBase m1 => obtain ⟨a, -, rfl⟩ := hu; cases hr
  | halt => cases h; cases hr

/-- Everything `exec` can do when it answers a next state. -/
theorem exec_next {i : Instr} {s t : State} (h : exec i s = .next t) :
    (∃ c, t = faultEntry c s) ∨
    (∃ m d, i = .input m ∧ s.inq = [] ∧ dstOperand s 1 m = .ok d ∧ t = s) ∨
    (∃ u, instrCycle i s = .ok u ∧ u.result ≠ .needMoreInput ∧ checkUpdate u = .ok () ∧ t = commit u s) := by
  rw [exec_eq, stateOf_next] at h
  obtain ⟨r, h⟩ := h
  rcases settle_next h with ⟨c, -, -, ht⟩ | ⟨u, hu, hr, -, ht⟩ | ⟨u, c, -, -, -, -, ht⟩ | ⟨u, hu, hr, hc, -, ht⟩
  · exact .inl ⟨c, ht⟩
  · obtain ⟨hq, m, d, hi, hd⟩ := instrCycle_wait hu hr
    exact .inr (.inl ⟨m, d, hi, hq, hd, ht⟩)
  · exact .inl ⟨c, ht⟩
  · exact .inr (.inr ⟨u, hu, hr, hc, ht⟩)

theorem cycle_of_decoded {s : State} {i : Instr} (hs : s.status = .ready) (hf : fetchDecode s = .ok i) :
    cycle s = settle s (instrCycle i s) := by
  unfold cycle; rw [hs, hf]

theorem cycle_ready {s t : State} {r : Result} (h : cycle s = .next (r, t)) : s.status = .ready := by
  unfold cycle at h
  split at h
  · cases h
  · cases h
  · assumption

/-- Everything a cycle can do when it answers a result. -/
theorem cycle_next {s t : State} {r : Result} (h : cycle s = .next (r, t)) :
    (∃ c, r = .fault c ∧ t = faultEntry c s) ∨
    (∃ m d, fetchDecode s = .ok (.input m) ∧ s.inq = [] ∧ dstOperand s 1 m = .ok d ∧ r = .needMoreInput ∧ t = s) ∨
    (∃ i u, fetchDecode s = .ok i ∧ instrCycle i s = .ok u ∧ u.result ≠ .needMoreInput ∧ checkUpdate u = .ok () ∧
      r = u.result ∧ t = commit u s) := by
  rcases hf : fetchDecode s with c | i
  · unfold cycle at h
    rw [cycle_ready h, hf] at h
    cases h
    exact .inl ⟨c, rfl, rfl⟩
  · rw [cycle_of_decoded (cycle_ready h) hf] at h
    rcases settle_next h with ⟨c, -, hr, ht⟩ | ⟨u, hu, hw, hr, ht⟩ | ⟨u, c, -, -, -, hr, ht⟩ | ⟨u, hu, hn, hc, hr, ht⟩
    · exact .inl ⟨c, hr, ht⟩
    · obtain ⟨hq, m, d, rfl, hd⟩ := instrCycle_wait hu hw
      exact .inr (.inl ⟨m, d, rfl, hq, hd, hr, ht⟩)
    · exact .inl ⟨c, hr, ht⟩
    · exact .inr (.inr ⟨i, u, rfl, hu, hn, hc, hr, ht⟩)

/-- The first of several steps of `core`. -/
theorem core_run_succ {n : Nat} {s t : State} (h : Sys2Proof.core.run (n + 1) s = .next t) :
    ∃ u, step s = .next u ∧ Sys2Proof.core.run n u = .next t := by
  simp only [Host.Core.run] at h
  rcases hs : Sys2Proof.core.step s with u | f | r <;> rw [hs] at h
  · exact ⟨u, hs, h⟩
  · cases h
  · cases h

end Sys2Proof.Machine
end

