-- ==== Sys2Proof/Tests/Slice0.lean ====
section
/-! SUPPORT. Tests whose expected values stand in spec/ (the vector's name is in each comment), the refusals of `wellFormed`, and
for every statement with hypotheses a witness that meets them (`witness_…`). -/

namespace Sys2Proof.Tests

open Sys2Proof.Machine

/-- A core constructed from an image. -/
def image (P : List Int) : State := { State.reset with mem := Mem.load 0 P }

/-- A core whose `pc` is `a` with the cells `P` from there on. -/
def imageAt (a : Nat) (P : List Int) : State := { State.reset with pc := a, mem := Mem.load a P }

/-- The state an answer goes on with. -/
def after (o : Host.Outcome State Fault Refusal) : Option State :=
  match o with
  | .next t => some t
  | .fault _ => none
  | .refused _ => none

/-- The answer of a cycle. -/
def cycled (s : State) : Option (Result × State) :=
  match cycle s with
  | .next x => some x
  | .fault _ => none
  | .refused _ => none

/-- `ADDR_MAX` (95_test_vectors.md). -/
abbrev top : Nat := 170141183460469231731687303715884105727

/-! ### Decoding: words from 95_test_vectors.md part 2 and 30_encoding.md R101 -/

-- V-DEC-2, V-DEC-3
theorem test_decode_add :
    decode 22201 = .ok (.add .relative .relative .relative) ∧ decode 1101 = .ok (.add .immediate .immediate .position) := by
  decide
-- R101
theorem test_decode_mul :
    decode 1002 = .ok (.mul .position .immediate .position) ∧ decode 1102 = .ok (.mul .immediate .immediate .position) := by
  decide
-- V-DEC-5
theorem test_decode_input : decode 203 = .ok (.input .relative) ∧ decode 3 = .ok (.input .position) := by decide
-- V-DEC-6
theorem test_decode_output : decode 104 = .ok (.output .immediate) ∧ decode 204 = .ok (.output .relative) := by decide
-- V-DEC-7
theorem test_decode_jump_if_true : decode 2105 = .ok (.jumpIfTrue .immediate .relative) := by decide
-- V-DEC-8
theorem test_decode_jump_if_false : decode 1006 = .ok (.jumpIfFalse .position .immediate) := by decide
-- V-DEC-9
theorem test_decode_less_than : decode 20007 = .ok (.lessThan .position .position .relative) := by decide
-- V-DEC-4
theorem test_decode_equals : decode 21208 = .ok (.equals .relative .immediate .relative) := by decide
-- V-DEC-10
theorem test_decode_adjust_relative_base : decode 209 = .ok (.adjustRelativeBase .relative) := by decide
-- V-DEC-11
theorem test_decode_halt : decode 99 = .ok .halt := by decide
-- V-DEC-13 to V-DEC-16
theorem test_decode_no_opcode :
    decode (-1) = .error (.invalidOpcode (-1)) ∧ decode 10 = .error (.invalidOpcode 10) ∧
    decode 98 = .error (.invalidOpcode 98) ∧ decode 100 = .error (.invalidOpcode 100) := by decide
-- V-DEC-19, V-DEC-20, V-DEC-23 to V-DEC-27
theorem test_decode_bad_mode :
    decode 3002 = .error (.invalidParameterMode 3002 2 3) ∧ decode 90001 = .error (.invalidParameterMode 90001 3 9) ∧
    decode 10105 = .error (.invalidParameterMode 10105 0 1) ∧ decode 100001 = .error (.invalidParameterMode 100001 0 1) ∧
    decode 199 = .error (.invalidParameterMode 199 0 1) ∧ decode 1099 = .error (.invalidParameterMode 1099 0 10) ∧
    decode 10003 = .error (.invalidParameterMode 10003 0 10) := by decide
-- V-DEC-29 to V-DEC-31
theorem test_decode_immediate_destination :
    decode 10002 = .error (.invalidDestinationMode 10002 3) ∧ decode 103 = .error (.invalidDestinationMode 103 1) ∧
    decode 12208 = .error (.invalidDestinationMode 12208 3) := by decide

/-- The host's two hooks: a cell is the low 128 bits (log 5). -/
theorem test_decode_table_word :
    decodeTableWord 128 1002 = some (.mul .position .immediate .position) ∧ decodeTableWord 16 99 = some .halt ∧
    decodeTableWord 128 (2 ^ 128 - 1) = none := by decide
theorem test_with_fetch_word :
    after (step (State.reset.withFetchWord 512 (1101 + 2 ^ 128 * (20 + 2 ^ 128 * (22 + 2 ^ 128 * 7))))) =
      some { State.reset with mem := [(0, 1101), (1, 20), (2, 22), (3, 7), (7, 42)], pc := 4 } := by decide

/-! ### Well-formedness: each check refuses an ill-formed term (R93) -/

theorem test_wf_add : (Instr.add .position .position .immediate).wellFormed = false := by decide
theorem test_wf_mul : (Instr.mul .position .position .immediate).wellFormed = false := by decide
theorem test_wf_input : (Instr.input .immediate).wellFormed = false := by decide
theorem test_wf_less_than : (Instr.lessThan .position .position .immediate).wellFormed = false := by decide
theorem test_wf_equals : (Instr.equals .position .position .immediate).wellFormed = false := by decide

/-! ### The ten instructions, one step each -/

-- V-ARI-3: relative sources and destination
theorem test_add_relative :
    (after (step { image [22201, 1, 2, 3, 0, 0, 0, 0, 0, 0, 0, 7, 8] with rb := 10 })).map
      (fun t => (t.mem.read 13, t.pc)) = some (15, 4) := by decide
-- V-ARI-6
theorem test_add_overflow :
    cycled (image [1101, -170141183460469231731687303715884105728, -1, 0]) =
      some (.fault (.arithmeticOverflow (-170141183460469231731687303715884105729)),
        { image [1101, -170141183460469231731687303715884105728, -1, 0] with
            status := .faulted, cause := some (.arithmeticOverflow (-170141183460469231731687303715884105729)) }) := by decide
-- V-ARI-14: CELL_MIN is a legal product
theorem test_mul_min :
    (after (step (image [1102, -18446744073709551616, 9223372036854775808, 0]))).map (fun t => (t.mem.read 0, t.pc)) =
      some (-170141183460469231731687303715884105728, 4) := by decide
-- V-ARI-13
theorem test_mul_overflow :
    (after (step (image [1102, 18446744073709551616, 9223372036854775808, 0]))).map (fun t => (t.cause, t.pc)) =
      some (some (.arithmeticOverflow 170141183460469231731687303715884105728), 0) := by decide
-- V-IO-2: relative destination, oldest value
theorem test_input :
    (after (step { image [203, -2] with rb := 12, inq := [-8, 5] })).map (fun t => (t.mem.read 10, t.inq, t.pc)) =
      some (-8, [5], 2) := by decide
-- V-IO-5: the destination faults before the empty queue is noticed
theorem test_input_fault_first :
    (cycled (image [3, -1])).map Prod.fst = some (.fault (.invalidAddress (-1))) := by decide
-- V-IO-9
theorem test_output_relative :
    (cycled { image [204, -1, 0, 55] with rb := 4 }).map (fun x => (x.1, x.2.out, x.2.pc)) =
      some (.output 55, [55], 2) := by decide
-- V-IO-10: an unset cell reads 0
theorem test_output_unset : (cycled (image [4, 1000])).map Prod.fst = some (.output 0) := by decide
-- V-JMP-3: a negative condition is true; position target
theorem test_jump_if_true : (after (step (image [5, 3, 4, -1, 9]))).map State.pc = some 9 := by decide
-- V-JMP-8: the operands are resolved although the jump is not taken
theorem test_jump_if_true_resolves :
    (after (step (image [5, 5, -1]))).map State.cause = some (some (.invalidAddress (-1))) := by decide
-- V-JMP-7
theorem test_jump_if_false :
    (after (step { image [2206, 1, 2, 0, 0, 44] with rb := 3 })).map State.pc = some 44 := by decide
-- V-JMP-5
theorem test_jump_if_false_not_taken : (after (step (image [1106, 2, 9]))).map State.pc = some 3 := by decide
-- V-CMP-3
theorem test_less_than_signed : (after (step (image [1107, -1, 0, 5]))).map (·.mem.read 5) = some 1 := by decide
-- V-CMP-6: a source overwritten by the result
theorem test_less_than_overlap : (after (step (image [7, 4, 5, 4, 1, 2]))).map (·.mem.read 4) = some 1 := by decide
-- V-CMP-8
theorem test_equals_sign : (after (step (image [1108, -1, 1, 5]))).map (·.mem.read 5) = some 0 := by decide
-- V-CMP-9: two unset cells are equal
theorem test_equals_unset : (after (step (image [8, 50, 60, 5]))).map (·.mem.read 5) = some 1 := by decide
-- V-ARB-4: the operand is read through the old base
theorem test_adjust_relative_base :
    (after (step { image [209, 3, 0, 0, 0, 0, 0, 0, 0, 0, 0, 0, 0, -4] with rb := 10 })).map (fun t => (t.rb, t.pc)) =
      some (6, 2) := by decide
-- V-ARB-7
theorem test_adjust_relative_base_overflow :
    (after (step { image [109, -1] with rb := -170141183460469231731687303715884105728 })).map (fun t => (t.rb, t.cause)) =
      some (-170141183460469231731687303715884105728,
        some (.arithmeticOverflow (-170141183460469231731687303715884105729))) := by decide
-- V-HLT-1
theorem test_halt : cycled (image [99]) = some (.halt, { image [99] with status := .halted }) := by decide
-- P5, R191, R34
theorem test_codes : causeCode (some (.invalidOpcode 0)) = 1 ∧ causeCode none = 0 ∧ Status.faulted.code = 2 := by decide
-- V-TOP-1
theorem test_halt_top : (after (step (imageAt top [99]))).map (fun t => (t.status, t.pc)) = some (.halted, top) := by decide

/-! ### The top of the address space, the loader, the assembler -/

-- V-TOP-2: the parameter's address
theorem test_top_parameter :
    (after (step (imageAt top [104]))).map (fun t => (t.cause, t.pc)) =
      some (some (.invalidAddress 170141183460469231731687303715884105728), top) := by decide
-- V-TOP-3: the next pc; nothing was put out
theorem test_top_next_pc :
    (after (step (imageAt (top - 1) [104, 6]))).map (fun t => (t.cause, t.out)) =
      some (some (.invalidAddress 170141183460469231731687303715884105728), []) := by decide
-- V-TOP-4: a taken jump needs no sequential next pc
theorem test_top_jump : (after (step (imageAt (top - 2) [1105, 1, 0]))).map State.pc = some 0 := by decide
-- V-LD-3, V-LD-4, V-LD-14
theorem test_loader_accepts :
    parse "104,-1,99\r\n ".toList = .ok [104, -1, 99] ∧ parse "007,-0".toList = .ok [7, 0] ∧
    parse "-170141183460469231731687303715884105728".toList = .ok [-170141183460469231731687303715884105728] := by decide
-- V-LD-6 to V-LD-10, V-LD-12, V-LD-13
theorem test_loader_refuses :
    parse [] = .error .parseError ∧ parse "1,,2".toList = .error .parseError ∧ parse "1,2,".toList = .error .parseError ∧
    parse "1, 2".toList = .error .parseError ∧ parse "+5".toList = .error .parseError ∧
    parse "1\n2".toList = .error .parseError ∧
    parse "170141183460469231731687303715884105728".toList = .error .parseError := by decide
-- S4: `MUL [4], #3, [4]` ; `DATA 33`
theorem test_assemble :
    assembleText "MUL [4], #3, [4] ; patched\nDATA 33".toList = some [1002, 4, 3, 4, 33] := by decide
-- R99: labels, relative operands; an Immediate destination is refused
theorem test_assemble_labels :
    assembleText "loop: \n OUT [rb-1]\n JT #1, #loop\nx:\nDATA x".toList = some [204, -1, 1105, 1, 0, 5] ∧
    assembleText "ADD [1], [2], #3".toList = none := by decide

/-! ### Witnesses: a state and operands that meet the hypotheses of each statement, clause by clause at its bounds -/

theorem witness_cell_digits : decode (22208 : Nat) = .ok (.equals .relative .relative .relative) ∧ decode (99 : Nat) = .ok .halt := by
  decide
theorem witness_unset_cell :
    (imageAt top []).status = .ready ∧ isAddr (imageAt top []).pc = true ∧ (imageAt top []).mem.read (imageAt top []).pc = 0 := by
  decide
theorem witness_first_bad_digit :
    (nparamsOf (90001 % 100) = some 3 ∧ 2 < digit 90001 4 ∧ digit 90001 2 ≤ 2 ∧ digit 90001 3 ≤ 2) ∧
    (nparamsOf (303 % 100) = some 1 ∧ 2 < digit 303 2) := by decide
theorem witness_excess_digits :
    (nparamsOf (100001 % 100) = some 3 ∧ digit 100001 2 ≤ 2 ∧ digit 100001 3 ≤ 2 ∧ digit 100001 4 ≤ 2 ∧
      digitsAbove 100001 5 ≠ 0) ∧
    (nparamsOf (10105 % 100) = some 2 ∧ digit 10105 2 ≤ 2 ∧ digit 10105 3 ≤ 2 ∧ digitsAbove 10105 4 ≠ 0) ∧
    (nparamsOf (199 % 100) = some 0 ∧ digitsAbove 199 2 ≠ 0) := by decide
theorem witness_immediate_destination :
    (image [11101]).status = .ready ∧ isAddr (image [11101]).pc = true ∧
    decode ((image [11101]).mem.read (image [11101]).pc) =
      .error (.invalidDestinationMode ((image [11101]).mem.read (image [11101]).pc) 3) := by decide
theorem witness_source_modes : fitsCell (-1) = true ∧ fitsCell 0 = true ∧
    srcValue State.reset (-1) .position = .error (.invalidAddress (-1)) ∧ srcValue State.reset 0 .position = .ok 0 := by decide

-- V-FLT-3 and its neighbours: each parameter as the first that faults
theorem witness_first_fault_three :
    srcOperand (image [1, -1, -2, -3]) 1 .position = .error (.raised (.invalidAddress (-1))) ∧
    (srcOperand (image [1, 0, -2, -3]) 1 .position = .ok 1 ∧
      srcOperand (image [1, 0, -2, -3]) 2 .position = .error (.raised (.invalidAddress (-2)))) ∧
    (srcOperand (image [1, 0, 0, -3]) 1 .position = .ok 1 ∧ srcOperand (image [1, 0, 0, -3]) 2 .position = .ok 1 ∧
      dstOperand (image [1, 0, 0, -3]) 3 .position = .error (.raised (.invalidAddress (-3)))) := by decide
theorem witness_first_fault_two :
    srcOperand (image [5, -1, -2]) 1 .position = .error (.raised (.invalidAddress (-1))) ∧
    srcOperand (image [5, 0, -2]) 1 .position = .ok 5 ∧
    srcOperand (image [5, 0, -2]) 2 .position = .error (.raised (.invalidAddress (-2))) := by decide
theorem witness_first_fault_one :
    srcOperand (imageAt top [104]) 1 .immediate = .error (.raised (.invalidAddress (top + 1))) ∧
    dstOperand (imageAt top [3]) 1 .position = .error (.raised (.invalidAddress (top + 1))) := by decide
theorem witness_stuck :
    srcOperand (image [1, 0, 0, 7]) 1 .position = .ok 1 ∧ srcOperand (image [1, 0, 0, 7]) 2 .position = .ok 1 ∧
    param (image [1, 0, 0, 7]) 3 = .ok 7 ∧ param (image [103, 9]) 1 = .ok 9 := by decide

-- ADD, MUL: a sum or product in range and one out of range at both ends, a next pc in range and one out of it
theorem witness_add :
    (operandsSSD (image [1101, 2, 3, 0]) .immediate .immediate .position = .ok (2, 3, 0) ∧ fitsCell (2 + 3) = true ∧
      isAddr ((image [1101, 2, 3, 0]).pc + 4) = true) ∧
    (operandsSSD (image [1101, top, 1, 0]) .immediate .immediate .position = .ok (top, 1, 0) ∧
      fitsCell (top + 1) = false) ∧
    (operandsSSD (imageAt (top - 3) [1101, top, 0, 0]) .immediate .immediate .position = .ok (top, 0, 0) ∧
      fitsCell (top + 0) = true ∧ isAddr ((imageAt (top - 3) [1101, top, 0, 0]).pc + 4) = false) ∧
    operandsSSD (image [1101, 1, 1, -3]) .immediate .immediate .position = .error (.raised (.invalidAddress (-3))) := by
  decide
theorem witness_mul :
    (operandsSSD (image [1102, -7, 6, 5]) .immediate .immediate .position = .ok (-7, 6, 5) ∧ fitsCell (-7 * 6) = true ∧
      isAddr ((image [1102, -7, 6, 5]).pc + 4) = true) ∧
    (operandsSSD (image [1102, -170141183460469231731687303715884105728, -1, 0]) .immediate .immediate .position =
        .ok (-170141183460469231731687303715884105728, -1, 0) ∧
      fitsCell (-170141183460469231731687303715884105728 * -1) = false) ∧
    (operandsSSD (imageAt (top - 3) [1102, top, 1, 0]) .immediate .immediate .position = .ok (top, 1, 0) ∧
      fitsCell (top * 1) = true ∧ isAddr ((imageAt (top - 3) [1102, top, 1, 0]).pc + 4) = false) ∧
    operandsSSD (image [1, -1, 5, 5]) .position .position .position = .error (.raised (.invalidAddress (-1))) := by
  decide
-- LT, EQ: both outcomes, and a next pc out of range
theorem witness_compare :
    (operandsSSD (image [1107, 8, 8, 5]) .immediate .immediate .position = .ok (8, 8, 5) ∧
      isAddr ((image [1107, 8, 8, 5]).pc + 4) = true) ∧
    operandsSSD (image [1107, 7, 8, 5]) .immediate .immediate .position = .ok (7, 8, 5) ∧
    (operandsSSD (imageAt (top - 3) [1107, 7, 8, 5]) .immediate .immediate .position = .ok (7, 8, 5) ∧
      isAddr ((imageAt (top - 3) [1107, 7, 8, 5]).pc + 4) = false) ∧
    operandsSSD (image [1107, 7, 8, -1]) .immediate .immediate .position = .error (.raised (.invalidAddress (-1))) := by
  decide
theorem witness_input :
    (dstOperand { image [3, 9] with inq := [42, 43] } 1 .position = .ok 9 ∧ fitsCell 42 = true ∧
      isAddr ((image [3, 9]).pc + 2) = true) ∧
    (dstOperand { imageAt (top - 1) [3, 9] with inq := [top] } 1 .position = .ok 9 ∧ fitsCell top = true ∧
      isAddr ((imageAt (top - 1) [3, 9]).pc + 2) = false) ∧
    dstOperand (image [3, -1]) 1 .position = .error (.raised (.invalidAddress (-1))) := by decide
theorem witness_input_waits :
    (image [3, 9]).inq = [] ∧ dstOperand (image [3, 9]) 1 .position = .ok 9 ∧ (image [3, 9]).status = .ready ∧
    fetchDecode (image [3, 9]) = .ok (.input .position) ∧
    dstOperand (image [3, -1]) 1 .position = .error (.raised (.invalidAddress (-1))) ∧
    (image [103, 9]).inq = [] ∧ (image [103, 9]).status = .ready ∧
    fetchDecode (image [103, 9]) = .error (.invalidDestinationMode 103 1) ∧
    fetchDecode (image [3, -1]) = .ok (.input .position) := by decide
theorem witness_output :
    (srcOperand (image [104, -9]) 1 .immediate = .ok (-9) ∧ isAddr ((image [104, -9]).pc + 2) = true ∧
      (image [104, -9]).status = .ready ∧ fetchDecode (image [104, -9]) = .ok (.output .immediate)) ∧
    (srcOperand (imageAt (top - 1) [104, 6]) 1 .immediate = .ok 6 ∧
      isAddr ((imageAt (top - 1) [104, 6]).pc + 2) = false) ∧
    srcOperand (image [4, -1]) 1 .position = .error (.raised (.invalidAddress (-1))) := by decide
-- JT and JF: taken to the highest address and to a negative one, not taken with and without a next address
theorem witness_jumps :
    (operandsSS (image [1105, 5, top]) .immediate .immediate = .ok (5, top) ∧ isAddr top = true) ∧
    (operandsSS (image [1105, 1, -4]) .immediate .immediate = .ok (1, -4) ∧ isAddr (-4) = false) ∧
    (operandsSS (image [1105, 0, -4]) .immediate .immediate = .ok (0, -4) ∧
      isAddr ((image [1105, 0, -4]).pc + 3) = true) ∧
    (operandsSS (imageAt (top - 2) [1105, 0, 0]) .immediate .immediate = .ok (0, 0) ∧
      isAddr ((imageAt (top - 2) [1105, 0, 0]).pc + 3) = false) ∧
    operandsSS (imageAt (top - 2) [1106, 2, 0]) .immediate .immediate = .ok (2, 0) ∧
    operandsSS (image [5, 5, -1]) .position .position = .error (.raised (.invalidAddress (-1))) := by decide
theorem witness_adjust_relative_base :
    (srcOperand { image [109, -7] with rb := 3 } 1 .immediate = .ok (-7) ∧ fitsCell (3 + -7) = true ∧
      isAddr ((image [109, -7]).pc + 2) = true) ∧
    (srcOperand { image [109, 1] with rb := top } 1 .immediate = .ok 1 ∧ fitsCell (top + 1) = false) ∧
    (srcOperand (imageAt (top - 1) [109, 1]) 1 .immediate = .ok 1 ∧ fitsCell (0 + 1) = true ∧
      isAddr ((imageAt (top - 1) [109, 1]).pc + 2) = false) ∧
    srcOperand (image [9, -1]) 1 .position = .error (.raised (.invalidAddress (-1))) := by decide
theorem witness_overflow :
    (∀ v ∈ ({ image [1101, top, 1, 0] with inq := [top] } : State).inq, fitsCell v = true) ∧
    (cycled { image [1101, top, 1, 0] with inq := [top] }).map Prod.fst = some (.fault (.arithmeticOverflow (top + 1))) ∧
    (cycled { image [109, -1] with rb := -top - 1 }).map Prod.fst = some (.fault (.arithmeticOverflow (-top - 2))) := by decide
theorem witness_halt :
    (image [99]).status = .ready ∧ fetchDecode (image [99]) = .ok .halt ∧ 199 % 100 = 99 ∧ 199 ≠ 99 := by decide

-- the frames: an ADD beside its destination, a jump, and IN, OUT, ARB, HLT changing their element
theorem witness_frames :
    (after (exec (.add .immediate .immediate .position) (image [1101, 2, 3, 0])) = some { image [5, 2, 3, 0] with pc := 4 } ∧
      destination (.add .immediate .immediate .position) (image [1101, 2, 3, 0]) ≠ some (.ok 1)) ∧
    after (exec (.input .position) { image [3, 9] with inq := [4] }) = some { image [3, 9, 0, 0, 0, 0, 0, 0, 0, 4] with pc := 2 } ∧
    after (exec (.output .immediate) (image [104, 6])) = some { image [104, 6] with pc := 2, out := [6] } ∧
    after (exec (.adjustRelativeBase .immediate) (image [109, 6])) = some { image [109, 6] with pc := 2, rb := 6 } ∧
    after (exec (.jumpIfTrue .immediate .immediate) (image [1105, 1, 0])) = some (image [1105, 1, 0]) ∧
    after (exec .halt (image [99])) = some { image [99] with status := .halted } := by decide

theorem witness_step_runs :
    (imageAt top [99]).status = .ready ∧ isAddr (imageAt top [99]).pc = true ∧
    decode ((imageAt top [99]).mem.read (imageAt top [99]).pc) = .ok .halt ∧ Instr.wellFormed .halt = true := by decide
theorem witness_step_decode_fault :
    (image [1300]).status = .ready ∧ isAddr (image [1300]).pc = true ∧
    decode ((image [1300]).mem.read (image [1300]).pc) = .error (.invalidOpcode 1300) := by decide
theorem witness_not_ready :
    ({ image [99] with status := .halted } : State).status = .halted ∧
    (faultEntry (.invalidOpcode 0) (image [0])).status = .faulted ∧ (faultEntry (.invalidOpcode 0) (image [0])).status ≠ .ready := by
  decide
theorem witness_faults :
    cycled (image [0]) = some (.fault (.invalidOpcode 0), faultEntry (.invalidOpcode 0) (image [0])) ∧
    after (step (image [0])) = some (faultEntry (.invalidOpcode 0) (image [0])) ∧
    (faultEntry (.invalidOpcode 0) (image [0])).status = .faulted := by decide
-- S4: the product is written at the next pc; and an IN that patches the next cell
theorem witness_next_fetch :
    (image [1002, 4, 3, 4, 33]).status = .ready ∧ isAddr ((image [1002, 4, 3, 4, 33]).pc + 4) = true ∧
    operandsSSD (image [1002, 4, 3, 4, 33]) .position .immediate .position = .ok (33, 3, 4) ∧
    fetchDecode (image [1002, 4, 3, 4, 33]) = .ok (.mul .position .immediate .position) ∧ fitsCell (33 * 3) = true ∧
    fetchDecode (image [1101, 90, 9, 4]) = .ok (.add .immediate .immediate .position) ∧ fitsCell (90 + 9) = true ∧
    operandsSSD (image [1101, 90, 9, 4]) .immediate .immediate .position = .ok (90, 9, 4) ∧
    fetchDecode { image [3, 2] with inq := [99] } = .ok (.input .position) ∧
    dstOperand { image [3, 2] with inq := [99] } 1 .position = .ok 2 ∧ fitsCell 99 = true := by decide
theorem witness_results :
    (cycled (image [1101, 2, 3, 0])).map Prod.fst = some .continue ∧ (cycled (image [3, 9])).map Prod.fst = some .needMoreInput ∧
    (cycled { image [3, 9] with inq := [4] }).map Prod.fst = some .continue ∧
    (cycled (image [104, 6])).map Prod.fst = some (.output 6) ∧ (cycled (image [99])).map Prod.fst = some .halt := by decide
theorem witness_status :
    (after (step (image [3, 0]))).map State.status = some .ready ∧ (after (step (image [99]))).map State.status = some .halted ∧
    (after (step (image [0]))).map State.status = some .faulted ∧
    enqueueInput 5 (image [99]) = some { image [99] with inq := [5] } := by decide

/-- A state with every element in use that meets the invariant, and the step it takes. -/
theorem witness_invariant :
    ({ pc := 0, rb := -5, mem := [(0, 104), (1, 7)], inq := [3], out := [8], status := .ready, cause := none } : State).Inv ∧
    after (step { pc := 0, rb := -5, mem := [(0, 104), (1, 7)], inq := [3], out := [8], status := .ready, cause := none }) =
      some { pc := 2, rb := -5, mem := [(0, 104), (1, 7)], inq := [3], out := [8, 7], status := .ready, cause := none } := by
  refine ⟨⟨by decide, by decide, by decide, by decide, fun a => ?_, by decide, by decide, by decide, by decide⟩, by decide⟩
  show fitsCell (if a = 0 then 104 else if a = 1 then 7 else 0) = true
  split
  · decide
  · split <;> decide
theorem witness_construct : construct [99, 1] = some (image [99, 1]) := by decide
theorem witness_reachable : Reachable { image [99] with inq := [top] } :=
  .enqueue (s := image [99]) (v := top) (.construct (P := [99]) (by decide)) (by decide)
theorem witness_queues :
    after (Sys2Proof.core.run 2 { image [3, 9, 104, 5] with inq := [4, 6] }) =
      some { image [3, 9, 104, 5, 0, 0, 0, 0, 0, 4] with pc := 4, inq := [6], out := [5] } := by decide
theorem witness_memories :
    Mem.wf [(0, 1), (7, -2)] ∧ Mem.wf (Mem.write [(0, 1)] 7 (-2)) ∧ Mem.read [(0, 1), (7, -2)] 3 = 0 := by decide

/-- `step()` returning each of the four visible results. -/
theorem witness_step_returns :
    StepReturns (image [104, 6]) (.output 6) { image [104, 6] with pc := 2, out := [6] } ∧
    StepReturns (image [3, 9]) .needMoreInput (image [3, 9]) ∧
    StepReturns (image [99]) .halt { image [99] with status := .halted } ∧
    StepReturns (image [0]) (.fault (.invalidOpcode 0)) (faultEntry (.invalidOpcode 0) (image [0])) :=
  ⟨.visible rfl (by decide), .visible rfl (by decide), .visible rfl (by decide), .visible rfl (by decide)⟩
theorem witness_self_jump :
    (image [1105, 1, 0]).status = .ready ∧ isAddr (image [1105, 1, 0]).pc = true ∧
    operandsSS (image [1105, 1, 0]) .immediate .immediate = .ok (1, ((image [1105, 1, 0]).pc : Int)) ∧
    fetchDecode (image [1105, 1, 0]) = .ok (.jumpIfTrue .immediate .immediate) ∧
    operandsSS (image [1106, 0, 0]) .immediate .immediate = .ok (0, ((image [1106, 0, 0]).pc : Int)) ∧
    fetchDecode (image [1106, 0, 0]) = .ok (.jumpIfFalse .immediate .immediate) := by decide
theorem witness_waiting :
    StepReturns (image [3, 9]) .needMoreInput (image [3, 9]) ∧ isAddr ((image [3, 9]).pc + 2) = true ∧
    enqueueInput 7 (image [3, 9]) = some { image [3, 9] with inq := [7] } :=
  ⟨.visible rfl (by decide), by decide, by decide⟩
theorem witness_run_returns :
    RunReturns (image [104, 6, 99]) [6] .halt { image [104, 6, 99] with pc := 2, out := [6], status := .halted } :=
  .output (.visible (t := { image [104, 6, 99] with pc := 2, out := [6] }) rfl (by decide))
    (.blocked (.visible rfl (by decide)) (fun _ h => by cases h))
theorem witness_host_arguments :
    fitsCell top = true ∧ fitsCell (top + 1) = false ∧ isAddr top = true ∧ isAddr (top + 1) = false := by decide
theorem witness_image : (∀ v ∈ ([1, -1, top] : List Int), fitsCell v = true) ∧
    (([1, -1, top] : List Int).length : Int) - 1 ≤ 170141183460469231731687303715884105727 := by decide
theorem witness_program_text : ProgramText "7,-0\n".toList [7, 0] :=
  .more (tok := ['7']) (rest := ['-', '0', '\n']) (.plain (ds := ['7']) (by decide) (by simp)) (by decide)
    (.last (tok := ['-', '0']) (blanks := ['\n']) (.negated (ds := ['0']) (by decide) (by simp)) (by decide) (by simp))
theorem witness_assembled_line :
    (Instr.mul .position .immediate .relative).wellFormed = true ∧
    [AsmOperand.position (.literal 4), .immediate (.literal 3), .relativeMinus (.literal 4)].map AsmOperand.mode =
      (Instr.mul .position .immediate .relative).modes ∧
    [AsmOperand.position (.literal 4), .immediate (.literal 3), .relativeMinus (.literal 4)].mapM (AsmOperand.raw []) =
      some [4, 3, -4] ∧ (∀ p ∈ ([4, 3, -4] : List Int), fitsCell p = true) := by decide

end Sys2Proof.Tests
end

section
/-! SUPPORT. Proofs about the architectural state (10_state.md): how `pc` and `status` move, and what construction gives. -/

namespace Sys2Proof.Machine

/-! ### The fetch, and a Ready core always answers -/

theorem fetchDecode_of_isAddr {s : State} (h : isAddr s.pc = true) :
    fetchDecode s = decode (s.mem.read s.pc) := by
  unfold fetchDecode memRead
  rw [if_pos h]
  rfl

theorem fetchDecode_ok {s : State} {i : Instr} (h : fetchDecode s = .ok i) :
    isAddr s.pc = true ∧ decode (s.mem.read s.pc) = .ok i := by
  have ha : isAddr s.pc = true := by
    unfold fetchDecode at h
    split at h
    · cases h
    · exact (memRead_ok ‹_›).1
  exact ⟨ha, by rwa [fetchDecode_of_isAddr ha] at h⟩

theorem decodeSSD_wellFormed {v : Nat} {mk : Mode → Mode → Mode → Instr} {i : Instr}
    (hmk : ∀ m1 m2 m3, (mk m1 m2 m3).wellFormed = m3.isDestination) (h : decodeSSD v mk = .ok i) :
    i.wellFormed = true := by
  obtain ⟨m1, m2, m3, -, -, -, -, hm, rfl⟩ := decodeSSD_ok.1 h
  rw [hmk, hm]

/-- The decoder yields only instructions: it refuses an Immediate destination (30_encoding.md R93). -/
theorem decode_wellFormed {v : Int} {i : Instr} (h : decode v = .ok i) : i.wellFormed = true := by
  unfold decode at h
  split at h
  · cases h
  unfold decodeNat at h
  split at h
  · exact decodeSSD_wellFormed (fun _ _ _ => rfl) h
  · exact decodeSSD_wellFormed (fun _ _ _ => rfl) h
  · obtain ⟨m1, -, -, hm, rfl⟩ := decodeD_ok.1 h; exact hm
  · obtain ⟨m1, -, -, rfl⟩ := decodeS_ok.1 h; rfl
  · obtain ⟨m1, m2, -, -, -, rfl⟩ := decodeSS_ok.1 h; rfl
  · obtain ⟨m1, m2, -, -, -, rfl⟩ := decodeSS_ok.1 h; rfl
  · exact decodeSSD_wellFormed (fun _ _ _ => rfl) h
  · exact decodeSSD_wellFormed (fun _ _ _ => rfl) h
  · obtain ⟨m1, -, -, rfl⟩ := decodeS_ok.1 h; rfl
  · obtain ⟨-, rfl⟩ := decodeN_ok.1 h; rfl
  · cases h

/-- Where the continuation cannot fail, a failure comes from the computation before it. -/
theorem error_of_bind_error {ε α β : Type} {x : Except ε α} {f : α → Except ε β} {e : ε}
    (h : (x >>= f) = .error e) (hf : ∀ a, f a ≠ .error e) : x = .error e := by
  rcases except_bind_error.1 h with hx | ⟨a, -, ha⟩
  · exact hx
  · exact absurd ha (hf a)

/-- A well-formed instruction is never stuck: its cycle ends early only in a fault of the core. -/
theorem instrCycle_error {i : Instr} {s : State} {e : Abort} (hw : i.wellFormed = true)
    (h : instrCycle i s = .error e) : ∃ c, e = .raised c := by
  cases i with
  | add m1 m2 m3 => exact operandsSSD_error hw (error_of_bind_error h fun _ => nofun)
  | mul m1 m2 m3 => exact operandsSSD_error hw (error_of_bind_error h fun _ => nofun)
  | lessThan m1 m2 m3 => exact operandsSSD_error hw (error_of_bind_error h fun _ => nofun)
  | equals m1 m2 m3 => exact operandsSSD_error hw (error_of_bind_error h fun _ => nofun)
  | input m1 => exact dstOperand_error hw (error_of_bind_error h fun _ => nofun)
  | output m1 => exact srcOperand_error (error_of_bind_error h fun _ => nofun)
  | jumpIfTrue m1 m2 => exact operandsSS_error (error_of_bind_error h fun _ => nofun)
  | jumpIfFalse m1 m2 => exact operandsSS_error (error_of_bind_error h fun _ => nofun)
  | adjustRelativeBase m1 => exact srcOperand_error (error_of_bind_error h fun _ => nofun)
  | halt => cases h

/-- The end of a cycle answers a next state unless the cycle was stuck. -/
theorem settle_answers {s : State} {x : Except Abort Update} (hx : ∀ e, x = .error e → ∃ c, e = .raised c) :
    ∃ r t, settle s x = .next (r, t) := by
  rcases x with e | u
  · obtain ⟨c, rfl⟩ := hx e rfl
    exact ⟨_, _, rfl⟩
  · unfold settle
    dsimp only
    split
    · exact ⟨_, _, rfl⟩
    · split <;> exact ⟨_, _, rfl⟩

/-- Every cycle of a Ready core answers a result and a state (40_engine.md R119). -/
theorem cycle_answers {s : State} (hs : s.status = .ready) : ∃ r t, cycle s = .next (r, t) := by
  rcases hf : fetchDecode s with c | i
  · exact ⟨.fault c, faultEntry c s, by unfold cycle; rw [hs, hf]⟩
  · rw [cycle_of_decoded hs hf]
    exact settle_answers fun e => instrCycle_error (decode_wellFormed (fetchDecode_ok hf).2)

/-- A step answers a next state exactly on a Ready core (R117, R132). -/
theorem exists_step_next_iff {s : State} : (∃ t, step s = .next t) ↔ s.status = .ready := by
  constructor
  · rintro ⟨t, h⟩
    obtain ⟨r, hc⟩ := step_next.1 h
    exact cycle_ready hc
  · intro hs
    obtain ⟨r, t, hc⟩ := cycle_answers hs
    exact ⟨t, step_next.2 ⟨r, hc⟩⟩

theorem runEnded_iff {s : State} : s.runEnded ↔ s.status ≠ .ready := by
  unfold State.runEnded
  cases s.status <;> simp

/-! ### How `pc` moves (R22) -/

theorem commit_pc_advance {u : Update} {s : State} {k : Nat} (hn : u.nextPc = some ((s.pc : Int) + k)) :
    (commit u s).pc = s.pc + k := by
  rw [commit_pc, hn]
  exact Int.toNat_natCast (s.pc + k)

/-- A checked jump target is assigned to `pc` as it is (43_jumps.md R162). -/
theorem commit_pc_target {u : Update} {s : State} {a : Int} (hc : checkUpdate u = .ok ())
    (hn : u.nextPc = some a) : ((commit u s).pc : Int) = a := by
  obtain ⟨-, -, hpc⟩ := checkUpdate_ok.1 hc
  rw [commit_pc, hn]
  exact Int.toNat_of_nonneg ((isAddr_iff a).1 (hpc a hn)).1

section Jumps
variable {cond target : Int} {pc : Nat}

theorem jumpIfTrueUpdate_taken (h : cond ≠ 0) : (jumpIfTrueUpdate cond target pc).nextPc = some target := by
  simp [jumpIfTrueUpdate, isNonZero, h]

theorem jumpIfTrueUpdate_not_taken (h : cond = 0) :
    (jumpIfTrueUpdate cond target pc).nextPc = some ((pc : Int) + (3 : Nat)) := by
  simp [jumpIfTrueUpdate, isNonZero, h]

theorem jumpIfFalseUpdate_taken (h : cond = 0) : (jumpIfFalseUpdate cond target pc).nextPc = some target := by
  simp [jumpIfFalseUpdate, isNonZero, h]

theorem jumpIfFalseUpdate_not_taken (h : cond ≠ 0) :
    (jumpIfFalseUpdate cond target pc).nextPc = some ((pc : Int) + (3 : Nat)) := by
  simp [jumpIfFalseUpdate, isNonZero, h]

end Jumps

/-- Settles O29, by the three ways an instruction ends: fault entry, waiting for input, or the commit of its update. -/
theorem pcAdvancesByWidthOrJump : Obligations.PcAdvancesByWidthOrJump := by
  refine ⟨fun s t v h => ?_, fun i s t h => ?_⟩
  · obtain ⟨-, rfl⟩ := enqueueInput_some h
    rfl
  rcases exec_next h with hf | ⟨m, d, rfl, hq, -, rfl⟩ | ⟨u, hu, hr, hc, rfl⟩
  · exact .inl hf
  · exact .inr (by simp [hq])
  refine .inr ?_
  have hu := instrCycle_ok hu
  cases i with
  | add m1 m2 m3 => obtain ⟨a, b, d, -, rfl⟩ := hu; exact commit_pc_advance rfl
  | mul m1 m2 m3 => obtain ⟨a, b, d, -, rfl⟩ := hu; exact commit_pc_advance rfl
  | lessThan m1 m2 m3 => obtain ⟨a, b, d, -, rfl⟩ := hu; exact commit_pc_advance rfl
  | equals m1 m2 m3 => obtain ⟨a, b, d, -, rfl⟩ := hu; exact commit_pc_advance rfl
  | output m1 => obtain ⟨a, -, rfl⟩ := hu; exact commit_pc_advance rfl
  | adjustRelativeBase m1 => obtain ⟨a, -, rfl⟩ := hu; exact commit_pc_advance rfl
  | halt => rw [hu]; rfl
  | input m1 =>
    obtain ⟨d, -, rfl⟩ := hu
    cases hq : s.inq with
    | nil => rw [hq] at hr; exact absurd rfl hr
    | cons v q => rw [if_neg (List.cons_ne_nil v q)]; exact commit_pc_advance rfl
  | jumpIfTrue m1 m2 =>
    obtain ⟨cond, target, ho, rfl⟩ := hu
    refine ⟨cond, target, ho, ?_⟩
    by_cases h0 : cond = 0
    · rw [if_neg (not_not_intro h0)]; exact commit_pc_advance (jumpIfTrueUpdate_not_taken h0)
    · rw [if_pos h0]; exact commit_pc_target hc (jumpIfTrueUpdate_taken h0)
  | jumpIfFalse m1 m2 =>
    obtain ⟨cond, target, ho, rfl⟩ := hu
    refine ⟨cond, target, ho, ?_⟩
    by_cases h0 : cond = 0
    · rw [if_pos h0]; exact commit_pc_target hc (jumpIfFalseUpdate_taken h0)
    · rw [if_neg h0]; exact commit_pc_advance (jumpIfFalseUpdate_not_taken h0)

/-! ### How `status` moves (R32) -/

/-- Opcode 99 is the one instruction whose update halts the core (46_halt.md R185). -/
theorem instrCycle_halts {i : Instr} {s : State} {u : Update} (hu : instrCycle i s = .ok u)
    (hh : u.halt = true) : i = .halt := by
  have hu := instrCycle_ok hu
  cases i with
  | halt => rfl
  | add m1 m2 m3 => obtain ⟨a, b, d, -, rfl⟩ := hu; cases hh
  | mul m1 m2 m3 => obtain ⟨a, b, d, -, rfl⟩ := hu; cases hh
  | lessThan m1 m2 m3 => obtain ⟨a, b, d, -, rfl⟩ := hu; cases hh
  | equals m1 m2 m3 => obtain ⟨a, b, d, -, rfl⟩ := hu; cases hh
  | jumpIfTrue m1 m2 => obtain ⟨a, b, -, rfl⟩ := hu; cases hh
  | jumpIfFalse m1 m2 => obtain ⟨a, b, -, rfl⟩ := hu; cases hh
  | output m1 => obtain ⟨a, -, rfl⟩ := hu; cases hh
  | adjustRelativeBase m1 => obtain ⟨a, -, rfl⟩ := hu; cases hh
  | input m1 => obtain ⟨d, -, rfl⟩ := hu; cases hq : s.inq <;> rw [hq] at hh <;> cases hh

/-- Where a step leaves `status`: the core stays Ready, halts at opcode 99, or enters a fault. -/
theorem step_status {s t : State} (h : step s = .next t) :
    t.status = .ready ∨ (t.status = .halted ∧ fetchDecode s = .ok .halt) ∨
      (t.status = .faulted ∧ ∃ c, t = faultEntry c s) := by
  obtain ⟨r, hcy⟩ := step_next.1 h
  have hs := cycle_ready hcy
  rcases cycle_next hcy with ⟨c, -, rfl⟩ | ⟨m, d, -, -, -, -, rfl⟩ | ⟨i, u, hf, hu, -, -, -, rfl⟩
  · exact .inr (.inr ⟨rfl, c, rfl⟩)
  · exact .inl hs
  · cases hh : u.halt with
    | false => exact .inl (by simp [hh, hs])
    | true =>
      obtain rfl := instrCycle_halts hu hh
      exact .inr (.inl ⟨by simp [hh], hf⟩)

/-- What an instruction computes depends on `pc`, `rb`, the memory and the input queue, and on nothing else of the state
(10_state.md R31, R32). -/
theorem instrCycle_congr (i : Instr) {s s' : State} (hpc : s.pc = s'.pc) (hrb : s.rb = s'.rb)
    (hmem : s.mem = s'.mem) (hinq : s.inq = s'.inq) : instrCycle i s = instrCycle i s' := by
  obtain ⟨pc, rb, mem, inq, out, status, cause⟩ := s
  obtain ⟨pc', rb', mem', inq', out', status', cause'⟩ := s'
  obtain rfl : pc = pc' := hpc
  obtain rfl : rb = rb' := hrb
  obtain rfl : mem = mem' := hmem
  obtain rfl : inq = inq' := hinq
  cases i <;> rfl

/-- Settles O39: the transitions are `step_status`, and a step is answered on a Ready core and on no other. -/
theorem statusTransitions : Obligations.StatusTransitions := by
  refine ⟨fun P s h => ?_, fun s t h => ⟨exists_step_next_iff.1 ⟨t, h⟩, step_status h⟩, fun s => ?_, fun s t v h => ?_,
    fun i s st k => instrCycle_congr i rfl rfl rfl rfl⟩
  · obtain ⟨-, -, rfl⟩ := construct_some h
    rfl
  · rw [runEnded_iff, ne_eq, ← exists_step_next_iff, not_exists]
  · obtain ⟨-, rfl⟩ := enqueueInput_some h
    exact ⟨rfl, rfl⟩

/-! ### Construction (R37; 70_reset_and_hazards.md R230) -/

/-- A list of cells no longer than the address space is a program image. -/
theorem construct_of_image {P : List Int} (hP : ∀ v ∈ P, fitsCell v = true)
    (hlen : (P.length : Int) - 1 ≤ 170141183460469231731687303715884105727) :
    construct P = some { State.reset with mem := Mem.load 0 P } := by
  have hroom : P = [] ∨ isAddr ((P.length : Int) - 1) = true := by
    rcases P.eq_nil_or_concat with h | ⟨Q, v, rfl⟩
    · exact .inl h
    · exact .inr ((isAddr_iff _).2 ⟨by simp, hlen⟩)
  unfold construct
  rw [if_pos]
  simpa [List.all_eq_true] using ⟨hP, hroom⟩

/-- Settles O55: the image reads back by `read_load`, and the first fetch is at address 0. -/
theorem constructionGivesTheResetState : Obligations.ConstructionGivesTheResetState := by
  intro P hP hlen
  refine ⟨_, construct_of_image hP hlen, rfl, rfl, rfl, rfl, rfl, rfl, fun a h => ?_, fun a h => ?_, fun v vs hv => ?_⟩
  · simp [read_load, h]
  · simp [read_load, h]
  · rw [fetchDecode_of_isAddr ((isAddr_iff _).2 (by simp))]
    simp [read_load, hv]

end Sys2Proof.Machine
end

section
/-! SUPPORT. Proofs about the encoding (30_encoding.md): the fields of a cell that decodes, and which fault each other cell
raises. -/

namespace Sys2Proof

open Machine

/-! ### The fields of a cell that decodes (R80) -/

theorem digitsAbove_eq_zero_mono {v n k : Nat} (h : digitsAbove v n = 0) (hk : n ≤ k) : digitsAbove v k = 0 := by
  unfold digitsAbove at h ⊢
  have hv : v < 10 ^ n := (Nat.div_eq_zero_iff_lt (by positivity)).1 h
  exact Nat.div_eq_of_lt (hv.trans_le (Nat.pow_le_pow_right (by norm_num) hk))

/-- A cell without a digit above the third mode digit is the sum of its fields. -/
theorem eq_sum_of_fields {v : Nat} (h : digitsAbove v 5 = 0) :
    v = v % 100 + 100 * digit v 2 + 1000 * digit v 3 + 10000 * digit v 4 := by
  unfold digitsAbove at h
  unfold digit
  omega

/-- The digits of `v` above the opcode are the modes `ms` and nothing else. -/
def HasModes (v : Nat) (ms : List Mode) : Prop :=
  (∀ (k : Nat) (h : k < ms.length), digit v (k + 2) = ms[k].digit) ∧ digitsAbove v (ms.length + 2) = 0

section Formats
variable {v : Nat} {i : Instr}

theorem decodeSSD_hasModes {mk : Mode → Mode → Mode → Instr} (h : decodeSSD v mk = .ok i) :
    ∃ m1 m2 m3, HasModes v [m1, m2, m3] ∧ mk m1 m2 m3 = i := by
  obtain ⟨m1, m2, m3, h1, h2, h3, hx, -, hi⟩ := decodeSSD_ok.1 h
  refine ⟨m1, m2, m3, ⟨fun k hk => ?_, hx⟩, hi⟩
  match k, hk with
  | 0, _ => exact h1
  | 1, _ => exact h2
  | 2, _ => exact h3

theorem decodeSS_hasModes {mk : Mode → Mode → Instr} (h : decodeSS v mk = .ok i) :
    ∃ m1 m2, HasModes v [m1, m2] ∧ mk m1 m2 = i := by
  obtain ⟨m1, m2, h1, h2, hx, hi⟩ := decodeSS_ok.1 h
  refine ⟨m1, m2, ⟨fun k hk => ?_, hx⟩, hi⟩
  match k, hk with
  | 0, _ => exact h1
  | 1, _ => exact h2

theorem hasModes_singleton {m : Mode} (h : digit v 2 = m.digit) (hx : digitsAbove v 3 = 0) : HasModes v [m] :=
  ⟨fun k hk => by obtain rfl := Nat.lt_one_iff.1 hk; exact h, hx⟩

end Formats

theorem decodeNat_fields {v : Nat} {i : Instr} (h : decodeNat v = .ok i) : v % 100 = i.code ∧ HasModes v i.modes := by
  unfold decodeNat at h
  split at h
  case h_1 hc | h_2 hc | h_7 hc | h_8 hc =>
    obtain ⟨m1, m2, m3, hm, rfl⟩ := decodeSSD_hasModes h
    exact ⟨hc, hm⟩
  case h_5 hc | h_6 hc =>
    obtain ⟨m1, m2, hm, rfl⟩ := decodeSS_hasModes h
    exact ⟨hc, hm⟩
  case h_4 hc | h_9 hc =>
    obtain ⟨m1, h1, hx, rfl⟩ := decodeS_ok.1 h
    exact ⟨hc, hasModes_singleton h1 hx⟩
  case h_3 hc =>
    obtain ⟨m1, h1, hx, -, rfl⟩ := decodeD_ok.1 h
    exact ⟨hc, hasModes_singleton h1 hx⟩
  case h_10 hc =>
    obtain ⟨hx, rfl⟩ := decodeN_ok.1 h
    exact ⟨hc, nofun, hx⟩
  case h_11 => cases h

theorem modes_length_le (i : Instr) : i.modes.length ≤ 3 := by
  cases i <;> simp [Instr.modes]

/-- Settles O2, from the fields of a cell that decodes: no mode digit is left above them. -/
theorem cellDigitsAreOpcodeAndModes : Obligations.CellDigitsAreOpcodeAndModes := by
  intro v i h
  rw [decode_natCast] at h
  obtain ⟨hop, hm, hx⟩ := decodeNat_fields h
  refine ⟨hop, hm, fun k hk => digit_eq_zero hx (by omega), ?_⟩
  have hsum := eq_sum_of_fields (digitsAbove_eq_zero_mono hx (Nat.add_le_add_right (modes_length_le i) 2))
  rwa [hop] at hsum

/-! ### The legal cells (R95, R97) -/

/-- R97 for every instruction at once: an absent parameter counts as Position, whose digit is 0. -/
theorem encode_eq (i : Instr) : encode i = i.code + 100 * (i.modes.getD 0 .position).digit +
    1000 * (i.modes.getD 1 .position).digit + 10000 * (i.modes.getD 2 .position).digit := by
  cases i <;> simp [encode, Instr.code, Instr.modes, Mode.digit]

theorem encode_of_decode {v : Int} {i : Instr} (h : decode v = .ok i) : encode i = v := by
  obtain ⟨v, rfl⟩ : ∃ n : Nat, v = n := by
    refine Int.eq_ofNat_of_zero_le (Int.not_lt.1 fun hv => ?_)
    rw [decode, if_pos hv] at h
    cases h
  obtain ⟨-, hm, h0, hsum⟩ := cellDigitsAreOpcodeAndModes v i h
  have hd (k : Nat) : digit v (k + 2) = (i.modes.getD k .position).digit := by
    rcases Nat.lt_or_ge k i.modes.length with hk | hk
    · rw [hm k hk, List.getD_eq_getElem _ _ hk]
    · rw [h0 k hk, List.getD_eq_default _ _ hk]; rfl
  rw [encode_eq, ← hd 0, ← hd 1, ← hd 2]
  exact_mod_cast hsum.symm

/-- Settles O4: a cell that decodes encodes a well-formed instruction, and those are run through by their modes. -/
theorem legalCellsAreTheNinetyNine : Obligations.LegalCellsAreTheNinetyNine := by
  refine fun v => ⟨?_, fun hv => ?_⟩
  · rintro ⟨i, h⟩
    have hw := decode_wellFormed h
    rw [← encode_of_decode h]
    clear h
    revert hw
    cases i
    case add m1 m2 m3 | mul m1 m2 m3 | lessThan m1 m2 m3 | equals m1 m2 m3 =>
      cases m1 <;> cases m2 <;> cases m3 <;> decide
    case jumpIfTrue m1 m2 | jumpIfFalse m1 m2 => cases m1 <;> cases m2 <;> decide
    case input m1 | output m1 | adjustRelativeBase m1 => cases m1 <;> decide
    case halt => decide
  · have hok : (decode v).toOption.isSome = true := by
      revert v
      decide
    rcases hd : decode v with c | i
    · rw [hd] at hok; cases hok
    · exact ⟨i, rfl⟩

/-! ### Which fault a cell raises (R87, R90 to R94) -/

/-- The parameter that is the destination of an opcode's instruction (R84). -/
def destinationIndex : Nat → Option Nat
  | 1 | 2 | 7 | 8 => some 3
  | 3 => some 1
  | _ => none

/-- The mode digits of the first `n` parameters are 0 to 2. -/
def ModeDigitsValid (v n : Nat) : Prop := ∀ j, 1 ≤ j → j ≤ n → digit v (j + 1) ≤ 2

/-- `c` is what the first bad mode digit of `n` parameters raises (R91). -/
def FirstBadMode (v n : Nat) (c : FaultCause) : Prop := ∃ k < n, ModeDigitsValid v k ∧ modeAt v (k + 1) = .error c

/-- `c` is the fault of a cell whose opcode has `n` parameters and the destination `dst`: the first bad mode digit (R91), else the
excess digits (R92), else an Immediate destination (R93). -/
def Refuses (v n : Nat) (dst : Option Nat) (c : FaultCause) : Prop :=
  FirstBadMode v n c ∨ ModeDigitsValid v n ∧ (noExcessDigits v n = .error c ∨
    digitsAbove v (n + 2) = 0 ∧ ∃ p, dst = some p ∧ digit v (p + 1) = 1 ∧ c = .invalidDestinationMode v p)

theorem exists_modeAt_ok {v i : Nat} : (∃ m, modeAt v i = .ok m) ↔ digit v (i + 1) ≤ 2 := by
  constructor
  · rintro ⟨m, h⟩
    rw [modeAt_ok.1 h]
    cases m <;> decide
  · intro hd
    rcases h : modeAt v i with c | m
    · exact absurd (modeAt_error.1 h).1 (Nat.not_lt.2 hd)
    · exact ⟨m, rfl⟩

/-- The checks of a destination parameter `i` with `n` parameters, in the decoder's order (R91 to R93). -/
theorem destination_refused_iff {v i n : Nat} {c : FaultCause} :
    (∃ m, modeAt v i = .ok m ∧ (noExcessDigits v n = .error c ∨
      ∃ u, noExcessDigits v n = .ok u ∧ destinationAllowed v i m = .error c)) ↔
    digit v (i + 1) ≤ 2 ∧ (noExcessDigits v n = .error c ∨
      digitsAbove v (n + 2) = 0 ∧ digit v (i + 1) = 1 ∧ c = .invalidDestinationMode v i) := by
  constructor
  · rintro ⟨m, hm, h⟩
    refine ⟨exists_modeAt_ok.1 ⟨m, hm⟩, h.imp_right ?_⟩
    rintro ⟨u, hx, hd⟩
    obtain ⟨rfl, rfl⟩ := destinationAllowed_error.1 hd
    exact ⟨noExcessDigits_ok.1 hx, modeAt_ok.1 hm, rfl⟩
  · rintro ⟨hd, hx | ⟨hx, h1, rfl⟩⟩
    · obtain ⟨m, hm⟩ := exists_modeAt_ok.2 hd
      exact ⟨m, hm, .inl hx⟩
    · exact ⟨.immediate, modeAt_ok.2 h1, .inr ⟨(), noExcessDigits_ok.2 hx, destinationAllowed_error.2 ⟨rfl, rfl⟩⟩⟩

@[simp] theorem modeDigitsValid_zero (v : Nat) : ModeDigitsValid v 0 :=
  fun j h1 h0 => absurd (Nat.le_trans h1 h0) (by decide)

@[simp] theorem modeDigitsValid_succ {v n : Nat} :
    ModeDigitsValid v (n + 1) ↔ ModeDigitsValid v n ∧ digit v (n + 2) ≤ 2 := by
  constructor
  · exact fun h => ⟨fun j h1 hj => h j h1 (Nat.le_succ_of_le hj), h (n + 1) (Nat.le_add_left 1 n) (Nat.le_refl _)⟩
  · rintro ⟨h, hd⟩ j h1 hj
    rcases Nat.le_succ_iff.1 hj with hj | rfl
    · exact h j h1 hj
    · exact hd

@[simp] theorem not_firstBadMode_zero (v : Nat) (c : FaultCause) : ¬ FirstBadMode v 0 c := nofun

@[simp] theorem firstBadMode_succ {v n : Nat} {c : FaultCause} : FirstBadMode v (n + 1) c ↔
    FirstBadMode v n c ∨ ModeDigitsValid v n ∧ modeAt v (n + 1) = .error c :=
  Nat.exists_lt_succ_right

section Formats
variable {v : Nat} {c : FaultCause}

theorem decodeSSD_refuses {mk : Mode → Mode → Mode → Instr} :
    decodeSSD v mk = .error c ↔ Refuses v 3 (some 3) c := by
  rw [decodeSSD_error]
  simp only [destination_refused_iff]
  simp only [exists_and_right, exists_modeAt_ok, Refuses, firstBadMode_succ, not_firstBadMode_zero, modeDigitsValid_succ,
    modeDigitsValid_zero, Nat.reduceAdd, zero_add, true_and, false_or, Option.some.injEq, exists_eq_left']
  tauto

theorem decodeSS_refuses {mk : Mode → Mode → Instr} : decodeSS v mk = .error c ↔ Refuses v 2 none c := by
  rw [decodeSS_error]
  simp only [exists_and_right, exists_modeAt_ok, Refuses, firstBadMode_succ, not_firstBadMode_zero, modeDigitsValid_succ,
    modeDigitsValid_zero, Nat.reduceAdd, zero_add, true_and, false_or, reduceCtorEq, false_and, exists_const, and_false,
    or_false]
  tauto

theorem decodeS_refuses {mk : Mode → Instr} : decodeS v mk = .error c ↔ Refuses v 1 none c := by
  rw [decodeS_error]
  simp [Refuses, exists_modeAt_ok]

theorem decodeD_refuses {mk : Mode → Instr} : decodeD v mk = .error c ↔ Refuses v 1 (some 1) c := by
  rw [decodeD_error, destination_refused_iff]
  simp [Refuses]

theorem decodeN_refuses {i : Instr} : decodeN v i = .error c ↔ Refuses v 0 none c := by
  rw [decodeN_error]
  simp [Refuses]

end Formats

/-- On an opcode with `n` parameters the decoder raises what the checks on `n` parameters and the opcode's destination raise. -/
theorem decodeNat_error_of_opcode {v n : Nat} {c : FaultCause} (h : nparamsOf (v % 100) = some n) :
    decodeNat v = .error c ↔ Refuses v n (destinationIndex (v % 100)) c := by
  unfold decodeNat
  rcases nparamsOf_some h with ⟨hc, rfl⟩ | ⟨hc, rfl⟩ | ⟨hc, rfl⟩ | ⟨hc, rfl⟩
  · rcases hc with hc | hc | hc | hc <;> rw [hc] <;> exact decodeSSD_refuses
  · rcases hc with hc | hc | hc <;> rw [hc]
    · exact decodeD_refuses
    · exact decodeS_refuses
    · exact decodeS_refuses
  · rcases hc with hc | hc <;> rw [hc] <;> exact decodeSS_refuses
  · rw [hc]; exact decodeN_refuses

theorem nparamsOf_none {c : Nat} : nparamsOf c = none ↔ c ∉ [1, 2, 3, 4, 5, 6, 7, 8, 9, 99] := by
  unfold nparamsOf
  split <;> simp_all

theorem decodeNat_of_no_opcode {v : Nat} (h : nparamsOf (v % 100) = none) :
    decodeNat v = .error (.invalidOpcode v) := by
  rw [nparamsOf_none] at h
  unfold decodeNat
  split <;> simp_all

/-- Every fault of the decoder: the cell has no opcode, or its opcode's checks refuse it. -/
theorem decode_error {v : Int} {c : FaultCause} : decode v = .error c ↔
    (v < 0 ∨ nparamsOf (v.toNat % 100) = none) ∧ c = .invalidOpcode v ∨
    0 ≤ v ∧ ∃ n, nparamsOf (v.toNat % 100) = some n ∧ Refuses v.toNat n (destinationIndex (v.toNat % 100)) c := by
  unfold decode
  split
  case isTrue hv => simp [hv, Int.not_le.2 hv, eq_comm]
  case isFalse hv =>
    have hv0 : 0 ≤ v := Int.not_lt.1 hv
    rcases hn : nparamsOf (v.toNat % 100) with _ | n
    · simp [decodeNat_of_no_opcode hn, Int.toNat_of_nonneg hv0, eq_comm]
    · simp [decodeNat_error_of_opcode hn, hv0, hv]

theorem not_refuses_invalidOpcode {v n : Nat} {dst : Option Nat} {w : Int} : ¬ Refuses v n dst (.invalidOpcode w) := by
  rintro (⟨k, -, -, hm⟩ | ⟨-, hx | ⟨-, p, -, -, hc⟩⟩)
  · cases (modeAt_error.1 hm).2
  · cases (noExcessDigits_error.1 hx).2
  · cases hc

theorem decode_invalidOpcode {v w : Int} : decode v = .error (.invalidOpcode w) ↔
    (v < 0 ∨ nparamsOf (v.toNat % 100) = none) ∧ w = v := by
  simp [decode_error, not_refuses_invalidOpcode]

theorem refuses_invalidDestinationMode {v n p : Nat} {dst : Option Nat} {w : Int} :
    Refuses v n dst (.invalidDestinationMode w p) ↔
      w = v ∧ ModeDigitsValid v n ∧ digitsAbove v (n + 2) = 0 ∧ dst = some p ∧ digit v (p + 1) = 1 := by
  constructor
  · rintro (⟨k, -, -, hm⟩ | ⟨hd, hx | ⟨hx, q, hq, h1, hc⟩⟩)
    · cases (modeAt_error.1 hm).2
    · cases (noExcessDigits_error.1 hx).2
    · cases hc; exact ⟨rfl, hd, hx, hq, h1⟩
  · rintro ⟨rfl, hd, hx, hq, h1⟩
    exact .inr ⟨hd, .inr ⟨hx, p, hq, h1, rfl⟩⟩

/-- Settles O6: the first bad mode digit comes before every other check of the opcode. -/
theorem firstBadModeDigitIsReported : Obligations.FirstBadModeDigitIsReported := by
  intro v n i hn h1 hi hbad hgood
  obtain ⟨k, rfl⟩ := Nat.exists_eq_add_of_le' h1
  rw [decode_natCast, decodeNat_error_of_opcode hn]
  exact .inl ⟨k, hi, fun j hj hk => hgood j hj (Nat.lt_succ_of_le hk), modeAt_error.2 ⟨hbad, rfl⟩⟩

/-- Settles O7: the excess digits are checked as soon as the mode digits are valid. -/
theorem excessDigitsAreRefused : Obligations.ExcessDigitsAreRefused := by
  intro v n hn hgood hx
  rw [decode_natCast, decodeNat_error_of_opcode hn]
  exact .inr ⟨hgood, .inl (noExcessDigits_error.2 ⟨hx, rfl⟩)⟩

/-- A Ready core takes the decode fault of the cell at `pc`, and fetches nothing more (R88, R119). -/
theorem step_of_decode_error {s : State} {c : FaultCause} (hs : s.status = .ready) (ha : isAddr s.pc = true)
    (h : decode (s.mem.read s.pc) = .error c) : step s = .next (faultEntry c s) := by
  refine step_next.2 ⟨.fault c, ?_⟩
  unfold cycle
  rw [hs, fetchDecode_of_isAddr ha, h]

/-- Settles O5: of the decoder's faults only the missing opcode is an InvalidOpcode, and an unset cell has no opcode. -/
theorem unknownOpcodesAreRefused : Obligations.UnknownOpcodesAreRefused := by
  refine ⟨fun v => ?_, fun v w h => (decode_invalidOpcode.1 h).2,
    fun s hs ha h0 => step_of_decode_error hs ha (by rw [h0]; rfl)⟩
  simp only [decode_invalidOpcode, nparamsOf_none, exists_eq_right]

theorem destinationIndex_some {c p : Nat} : destinationIndex c = some p ↔
    (c = 1 ∨ c = 2 ∨ c = 7 ∨ c = 8) ∧ p = 3 ∨ c = 3 ∧ p = 1 := by
  unfold destinationIndex
  split <;> simp_all [eq_comm]

/-- The fields of a cell whose one fault is an Immediate destination, and the cell they add up to (R93). -/
theorem immediateDestination_fields {v n p : Nat} (hn : nparamsOf (v % 100) = some n)
    (hp : destinationIndex (v % 100) = some p) (hd : ModeDigitsValid v n) (hx : digitsAbove v (n + 2) = 0)
    (h1 : digit v (p + 1) = 1) :
    p = 3 ∧ (v % 100 = 1 ∨ v % 100 = 2 ∨ v % 100 = 7 ∨ v % 100 = 8) ∧ digit v 2 ≤ 2 ∧ digit v 3 ≤ 2 ∧
      v = v % 100 + 100 * digit v 2 + 1000 * digit v 3 + 10000 ∨ p = 1 ∧ v = 103 := by
  have hcount := nparamsOf_some hn
  rcases destinationIndex_some.1 hp with ⟨hc, rfl⟩ | ⟨hc, rfl⟩
  · obtain rfl : n = 3 := by omega
    have hsum := eq_sum_of_fields hx
    rw [h1] at hsum
    exact .inl ⟨rfl, hc, hd 1 (by decide) (by decide), hd 2 (by decide) (by decide), hsum⟩
  · obtain rfl : n = 1 := by omega
    have hsum := eq_sum_of_fields (digitsAbove_eq_zero_mono hx (k := 5) (by decide))
    rw [hc, h1, digit_eq_zero hx (k := 3) (by decide), digit_eq_zero hx (k := 4) (by decide)] at hsum
    exact .inr ⟨rfl, hsum⟩

theorem natCast_mem_modeDigits {d : Nat} (h : d ≤ 2) : (d : Int) ∈ ([0, 1, 2] : List Int) := by
  interval_cases d <;> decide

/-- Settles O8: the fields of a refused cell give the 36 + 1 cells, and the step takes the decoder's fault. -/
theorem immediateDestinationsAreRefused : Obligations.ImmediateDestinationsAreRefused := by
  refine ⟨fun v w p => ⟨fun h => ?_, ?_⟩, fun s p hs ha h => step_of_decode_error hs ha h⟩
  · obtain ⟨-, hc⟩ | ⟨hv, n, hn, hr⟩ := decode_error.1 h
    · cases hc
    obtain ⟨v, rfl⟩ := Int.eq_ofNat_of_zero_le hv
    rw [Int.toNat_natCast] at hn hr
    obtain ⟨rfl, hd, hx, hp, h1⟩ := refuses_invalidDestinationMode.1 hr
    refine ⟨rfl, (immediateDestination_fields hn hp hd hx h1).imp ?_ ?_⟩
    · rintro ⟨rfl, hop, h2, h3, hsum⟩
      refine ⟨rfl, (v % 100 : Nat), ?_, digit v 2, natCast_mem_modeDigits h2, digit v 3, natCast_mem_modeDigits h3,
        mod_cast hsum⟩
      rcases hop with h | h | h | h <;> rw [h] <;> decide
    · rintro ⟨rfl, rfl⟩
      exact ⟨rfl, rfl⟩
  · have hcells : ∀ op ∈ ([1, 2, 7, 8] : List Int), ∀ m1 ∈ ([0, 1, 2] : List Int), ∀ m2 ∈ ([0, 1, 2] : List Int),
        decode (op + 100 * m1 + 1000 * m2 + 10000) =
          .error (.invalidDestinationMode (op + 100 * m1 + 1000 * m2 + 10000) 3) := by decide
    rintro ⟨rfl, ⟨rfl, op, hop, m1, hm1, m2, hm2, rfl⟩ | ⟨rfl, rfl⟩⟩
    · exact hcells op hop m1 hm1 m2 hm2
    · decide

/-! ### The worked words (R101) -/

/-- Settles O1, by running the decoder on the fourteen words. -/
theorem workedWordsDecodeAsTheSpecSays : Obligations.WorkedWordsDecodeAsTheSpecSays := by
  unfold Obligations.WorkedWordsDecodeAsTheSpecSays
  decide

end Sys2Proof
end


section
/-! SUPPORT. Proofs about the engine (40_engine.md): how parameters resolve, what a cycle answers to the host, and what the
host's operations give. -/

namespace Sys2Proof.Machine

/-! ### Sources by mode (R111) -/

theorem memRead_error {s : State} {a : Int} {c : FaultCause} :
    memRead s a = .error c ↔ isAddr a = false ∧ c = .invalidAddress a := by
  unfold memRead
  cases isAddr a
  · simp [eq_comm]
  · simp

/-- A cell is no address exactly when it is negative, since `ADDR_MAX = CELL_MAX` (00_scope.md R8). -/
theorem isAddr_eq_false_of_fitsCell {a : Int} (h : fitsCell a = true) : isAddr a = false ↔ a < 0 := by
  rw [fitsCell_iff] at h
  rw [← Bool.not_eq_true, isAddr_iff]
  omega

/-- Settles O10: a memory source is `memRead`, and a Position parameter that is a cell faults only by its sign. -/
theorem sourceModesResolve : Obligations.SourceModesResolve := by
  refine fun s p => ⟨rfl, rfl, rfl, fun hp => ?_⟩
  calc srcValue s p .position = .error (.invalidAddress p)
      ↔ isAddr p = false := memRead_error.trans (and_iff_left rfl)
    _ ↔ p < 0 := isAddr_eq_false_of_fitsCell hp

/-! ### The first faulting parameter (R113) -/

theorem param_eq (s : State) (i : Nat) : param s i =
    if isAddr (s.pc + i) then .ok (s.mem.read (s.pc + i)) else .error (.invalidAddress (s.pc + i)) := by
  have htoNat : ((s.pc : Int) + i).toNat = s.pc + i := Int.toNat_natCast (s.pc + i)
  unfold param memRead
  rw [htoNat]

/-- The operands of format SSD fail with the first failure in ascending order. -/
theorem operandsSSD_eq_error {s : State} {m1 m2 m3 : Mode} {e : Abort} :
    operandsSSD s m1 m2 m3 = .error e ↔ srcOperand s 1 m1 = .error e ∨
      (∃ a, srcOperand s 1 m1 = .ok a ∧ srcOperand s 2 m2 = .error e) ∨
      (∃ a b, srcOperand s 1 m1 = .ok a ∧ srcOperand s 2 m2 = .ok b ∧ dstOperand s 3 m3 = .error e) := by
  rw [operandsSSD_eq]
  rcases srcOperand s 1 m1 with e1 | a
  · simp [Except.bind]
  rcases srcOperand s 2 m2 with e2 | b
  · simp [Except.bind]
  rcases dstOperand s 3 m3 with e3 | d <;> simp [Except.bind]

theorem operandsSS_eq_error {s : State} {m1 m2 : Mode} {e : Abort} :
    operandsSS s m1 m2 = .error e ↔ srcOperand s 1 m1 = .error e ∨
      (∃ a, srcOperand s 1 m1 = .ok a ∧ srcOperand s 2 m2 = .error e) := by
  rw [operandsSS_eq]
  rcases srcOperand s 1 m1 with e1 | a
  · simp [Except.bind]
  rcases srcOperand s 2 m2 with e2 | b <;> simp [Except.bind]

section Raised
variable {s : State} {m1 m2 m3 : Mode} {c : FaultCause}

/-- An instruction whose cycle begins with its operands takes their fault. -/
theorem exec_of_bind_raised {α : Type} {i : Instr} {x : Except Abort α} {f : α → Except Abort Update}
    (hi : instrCycle i s = x >>= f) (hx : x = .error (.raised c)) : exec i s = .next (faultEntry c s) :=
  exec_of_raised (hi.trans (except_bind_error.2 (.inl hx)))

theorem exec_of_operandsSSD_raised {mk : Mode → Mode → Mode → Instr}
    (hmk : mk ∈ [Instr.add, Instr.mul, Instr.lessThan, Instr.equals])
    (h : operandsSSD s m1 m2 m3 = .error (.raised c)) : exec (mk m1 m2 m3) s = .next (faultEntry c s) := by
  simp only [List.mem_cons, List.not_mem_nil, or_false] at hmk
  rcases hmk with rfl | rfl | rfl | rfl <;> exact exec_of_bind_raised rfl h

theorem exec_of_operandsSS_raised {mk : Mode → Mode → Instr} (hmk : mk ∈ [Instr.jumpIfTrue, Instr.jumpIfFalse])
    (h : operandsSS s m1 m2 = .error (.raised c)) : exec (mk m1 m2) s = .next (faultEntry c s) := by
  simp only [List.mem_cons, List.not_mem_nil, or_false] at hmk
  rcases hmk with rfl | rfl <;> exact exec_of_bind_raised rfl h

theorem exec_of_source_raised {mk : Mode → Instr} (hmk : mk ∈ [Instr.output, Instr.adjustRelativeBase])
    (h : srcOperand s 1 m1 = .error (.raised c)) : exec (mk m1) s = .next (faultEntry c s) := by
  simp only [List.mem_cons, List.not_mem_nil, or_false] at hmk
  rcases hmk with rfl | rfl <;> exact exec_of_bind_raised rfl h

end Raised

/-- Settles O12: each format's operands fail with their first failure, and the instruction takes it. -/
theorem firstFaultingParameterIsTaken : Obligations.FirstFaultingParameterIsTaken := by
  refine ⟨param_eq, fun s i m => ⟨fun c h => ⟨srcOperand_param_error h m, dstOperand_param_error h m⟩,
      fun p h => ⟨dstOperand_of_param h m, fun a ha => srcOperand_ok.2 ⟨p, h, ha⟩, fun c hc => ?_⟩⟩,
    fun mk hmk s m1 m2 m3 c => ⟨fun h1 => ?_, fun a h1 h2 => ?_, fun a b h1 h2 h3 => ?_⟩,
    fun mk hmk s m1 m2 c => ⟨fun h1 => ?_, fun a h1 h2 => ?_⟩,
    fun mk hmk s m1 c => exec_of_source_raised hmk, fun s m1 c => exec_of_bind_raised rfl⟩
  · rw [srcOperand_of_param h, raising_error]
    exact ⟨c, hc, rfl⟩
  · exact exec_of_operandsSSD_raised hmk (operandsSSD_eq_error.2 (.inl h1))
  · exact exec_of_operandsSSD_raised hmk (operandsSSD_eq_error.2 (.inr (.inl ⟨a, h1, h2⟩)))
  · exact exec_of_operandsSSD_raised hmk (operandsSSD_eq_error.2 (.inr (.inr ⟨a, b, h1, h2, h3⟩)))
  · exact exec_of_operandsSS_raised hmk (operandsSS_eq_error.2 (.inl h1))
  · exact exec_of_operandsSS_raised hmk (operandsSS_eq_error.2 (.inr ⟨a, h1, h2⟩))

/-! ### A core that is not Ready (R117, R132) -/

theorem StepReturns.ready {s t : State} {r : Result} (h : StepReturns s r t) : s.status = .ready := by
  cases h with
  | visible hc _ => exact cycle_ready hc
  | silent hc _ => exact cycle_ready hc

theorem RunReturns.ready {s t : State} {vs : List Int} {r : Result} (h : RunReturns s vs r t) : s.status = .ready := by
  cases h with
  | blocked hs _ => exact hs.ready
  | output hs _ => exact hs.ready

/-- Settles O34: every result of `step()` and of `run_until_blocked()` begins with a cycle, and a cycle needs a Ready core. -/
theorem nothingRunsUnlessReady : Obligations.NothingRunsUnlessReady := by
  refine fun s => ⟨fun hs => ?_, fun hs => ?_, fun hs => ⟨fun r t h => hs h.ready, fun vs r t h => hs h.ready⟩⟩
  · unfold step; rw [hs]
  · unfold step; rw [hs]

/-! ### The result of a cycle (R118, R122) -/

/-- Settles O36: the result of a committed cycle is the one in its instruction's update. -/
theorem onlyEventsYieldToTheHost : Obligations.OnlyEventsYieldToTheHost := by
  intro i s t r hf hcy
  rcases cycle_next hcy with hfault | ⟨m, d, hf', hq, -, rfl, -⟩ | ⟨j, u, hf', hu, hr, -, rfl, -⟩
  · exact .inl hfault
  · obtain rfl : i = .input m := Except.ok.inj (hf.symm.trans hf')
    exact .inr (if_pos hq).symm
  obtain rfl : i = j := Except.ok.inj (hf.symm.trans hf')
  refine .inr ?_
  have hu := instrCycle_ok hu
  cases i with
  | add | mul | lessThan | equals => obtain ⟨a, b, d, -, rfl⟩ := hu; rfl
  | jumpIfTrue | jumpIfFalse => obtain ⟨a, b, -, rfl⟩ := hu; rfl
  | adjustRelativeBase m1 => obtain ⟨a, -, rfl⟩ := hu; rfl
  | output m1 => obtain ⟨a, ha, rfl⟩ := hu; exact ⟨a, ha, rfl⟩
  | halt => rw [hu]; rfl
  | input m1 =>
    obtain ⟨d, -, rfl⟩ := hu
    cases hq : s.inq with
    | nil => rw [hq] at hr; exact absurd rfl hr
    | cons v q => rfl

/-- What an instruction asks the host for is in its update: OUT pushes its operand, HLT halts, IN may wait, and the rest are silent. -/
theorem instrCycle_event {i : Instr} {s : State} {u : Update} (h : instrCycle i s = .ok u) :
    (u.result = .continue ∧ u.pushOutput = none ∧ u.halt = false) ∨ u.result = .needMoreInput ∨
    (∃ m v, i = .output m ∧ srcOperand s 1 m = .ok v ∧ u = outputUpdate v s.pc) ∨ (i = .halt ∧ u = haltUpdate) := by
  have hu := instrCycle_ok h
  cases i with
  | add | mul | lessThan | equals => obtain ⟨a, b, d, -, rfl⟩ := hu; exact .inl ⟨rfl, rfl, rfl⟩
  | jumpIfTrue | jumpIfFalse => obtain ⟨a, b, -, rfl⟩ := hu; exact .inl ⟨rfl, rfl, rfl⟩
  | adjustRelativeBase m1 => obtain ⟨a, -, rfl⟩ := hu; exact .inl ⟨rfl, rfl, rfl⟩
  | input m1 =>
    obtain ⟨d, -, rfl⟩ := hu
    cases s.inq with
    | nil => exact .inr (.inl rfl)
    | cons v q => exact .inl ⟨rfl, rfl, rfl⟩
  | output m1 => obtain ⟨v, hv, rfl⟩ := hu; exact .inr (.inr (.inl ⟨m1, v, rfl, hv, rfl⟩))
  | halt => exact .inr (.inr (.inr ⟨rfl, hu⟩))

/-- The five results of a cycle, each with what it leaves of `status` and `out`. -/
theorem cycle_result {s t : State} {r : Result} (h : cycle s = .next (r, t)) :
    (r = .continue ∧ t.status = .ready ∧ t.out = s.out) ∨
    (r = .needMoreInput ∧ t = s ∧ s.inq = []) ∨
    (∃ m v, r = .output v ∧ fetchDecode s = .ok (.output m) ∧ srcOperand s 1 m = .ok v ∧
      t = { s with pc := s.pc + 2, out := s.out ++ [v] }) ∨
    (r = .halt ∧ fetchDecode s = .ok .halt ∧ t = { s with status := .halted }) ∨
    (∃ c, r = .fault c ∧ t = faultEntry c s) := by
  rcases cycle_next h with hfault | ⟨m, d, -, hq, -, hr, ht⟩ | ⟨i, u, hf, hu, hn, -, rfl, rfl⟩
  · exact .inr (.inr (.inr (.inr hfault)))
  · exact .inr (.inl ⟨hr, ht, hq⟩)
  rcases instrCycle_event hu with ⟨hr, hp, hh⟩ | hr | ⟨m, v, rfl, hv, rfl⟩ | ⟨rfl, rfl⟩
  · exact .inl ⟨hr, by simp [hh, cycle_ready h], by rw [commit_out, hp]⟩
  · exact absurd hr hn
  · exact .inr (.inr (.inl ⟨m, v, rfl, hf, hv, rfl⟩))
  · exact .inr (.inr (.inr (.inl ⟨rfl, hf, rfl⟩)))

/-! ### `step()` (R124) -/

theorem stepReturns_iff {s t : State} {r : Result} : StepReturns s r t ↔
    ∃ r1 s1, cycle s = .next (r1, s1) ∧
      ((r1 = .continue ∧ StepReturns s1 r t) ∨ (r1 ≠ .continue ∧ r = r1 ∧ t = s1)) := by
  constructor
  · intro h
    cases h with
    | visible hc hr => exact ⟨r, t, hc, .inr ⟨hr, rfl, rfl⟩⟩
    | @silent _ s1 _ _ hc hs => exact ⟨.continue, s1, hc, .inl ⟨rfl, hs⟩⟩
  · rintro ⟨r1, s1, hc, ⟨rfl, hs⟩ | ⟨hr, rfl, rfl⟩⟩
    · exact .silent hc hs
    · exact .visible hc hr

/-- `step()` ends with a cycle whose result is visible, and the silent cycles before it leave `out` as it was. -/
theorem StepReturns.lastCycle {s t : State} {r : Result} (h : StepReturns s r t) :
    ∃ u, cycle u = .next (r, t) ∧ r ≠ .continue ∧ u.out = s.out := by
  induction h with
  | @visible s _ _ hc hr => exact ⟨s, hc, hr, rfl⟩
  | silent hc _ ih =>
    obtain ⟨u, hu, hr, hout⟩ := ih
    rcases cycle_result hc with ⟨-, -, hsilent⟩ | ⟨hr', -⟩ | ⟨_, _, hr', -⟩ | ⟨hr', -⟩ | ⟨_, hr', -⟩
    · exact ⟨u, hu, hr, hout.trans hsilent⟩
    all_goals cases hr'

/-- Settles O47: what holds after `step()` is what holds after its last cycle. -/
theorem stepRunsToTheNextEvent : Obligations.StepRunsToTheNextEvent := by
  refine ⟨fun s t r => stepReturns_iff, fun s t r h => ?_⟩
  obtain ⟨u, hu, hr, hout⟩ := h.lastCycle
  have hready := cycle_ready hu
  refine ⟨h.ready, hr, ?_⟩
  rcases cycle_result hu with ⟨rfl, -⟩ | ⟨rfl, rfl, hq⟩ | ⟨m, v, rfl, hf, -, rfl⟩ | ⟨rfl, -, rfl⟩ | ⟨c, rfl, rfl⟩
  · exact absurd rfl hr
  · exact ⟨nofun, fun _ => ⟨hready, hq, hu⟩, nofun, nofun⟩
  · refine ⟨fun w hw => ?_, nofun, nofun, nofun⟩
    cases hw
    exact ⟨hready, congrArg (· ++ [v]) hout, u, m, hf, hu, rfl⟩
  · exact ⟨nofun, nofun, fun _ => rfl, nofun⟩
  · refine ⟨nofun, nofun, nofun, fun d hd => ?_⟩
    cases hd
    exact ⟨rfl, rfl⟩

/-! ### `run_until_blocked()` (R128) -/

theorem runReturns_iff {s t : State} {vs : List Int} {r : Result} : RunReturns s vs r t ↔
    ∃ r1 s1, StepReturns s r1 s1 ∧
      ((∃ v ws, r1 = .output v ∧ vs = v :: ws ∧ RunReturns s1 ws r t) ∨
       ((∀ v, r1 ≠ .output v) ∧ vs = [] ∧ r = r1 ∧ t = s1)) := by
  constructor
  · intro h
    cases h with
    | blocked hs hr => exact ⟨r, t, hs, .inr ⟨hr, rfl, rfl, rfl⟩⟩
    | @output _ s1 _ v ws _ hs hrun => exact ⟨.output v, s1, hs, .inl ⟨v, ws, rfl, rfl, hrun⟩⟩
  · rintro ⟨r1, s1, hs, ⟨v, ws, rfl, rfl, hrun⟩ | ⟨hr, rfl, rfl, rfl⟩⟩
    · exact .output hs hrun
    · exact .blocked hs hr

/-- `step()` appends the value it returns to `out`, and nothing where it returns another result. -/
theorem StepReturns.out_eq {s t : State} {r : Result} (h : StepReturns s r t) :
    (∃ v, r = .output v ∧ t.out = s.out ++ [v]) ∨
      ((r = .needMoreInput ∨ r = .halt ∨ ∃ c, r = .fault c) ∧ t.out = s.out) := by
  obtain ⟨u, hu, hr, hout⟩ := h.lastCycle
  rcases cycle_result hu with ⟨rfl, -⟩ | ⟨rfl, rfl, -⟩ | ⟨m, v, rfl, -, -, rfl⟩ | ⟨rfl, -, rfl⟩ | ⟨c, rfl, rfl⟩
  · exact absurd rfl hr
  · exact .inr ⟨.inl rfl, hout⟩
  · exact .inl ⟨v, rfl, congrArg (· ++ [v]) hout⟩
  · exact .inr ⟨.inr (.inl rfl), hout⟩
  · exact .inr ⟨.inr (.inr ⟨c, rfl⟩), hout⟩

/-- Settles O52, by induction on the results of `step()` that the run collects. -/
theorem runReturnsTheAppendedOutput : Obligations.RunReturnsTheAppendedOutput := by
  refine ⟨fun s t vs r => runReturns_iff, fun s t vs r h => ?_⟩
  induction h with
  | blocked hs hr =>
    obtain ⟨v, hv, -⟩ | ⟨hend, hout⟩ := hs.out_eq
    · exact absurd hv (hr v)
    · exact ⟨by rw [hout, List.append_nil], hend⟩
  | @output s s' t v vs r hs hrun ih =>
    obtain ⟨ht, hend⟩ := ih
    obtain ⟨w, hw, hout⟩ | ⟨hr | hr | ⟨c, hr⟩, -⟩ := hs.out_eq
    · cases hw
      exact ⟨by rw [ht, hout, List.append_assoc, List.singleton_append], hend⟩
    all_goals cases hr

/-! ### The host's input and its reading of memory (R126, R127) -/

/-- Settles O53: the value is checked and appended, whatever the status. -/
theorem enqueueAppendsAtTheTail : Obligations.EnqueueAppendsAtTheTail := by
  exact fun s v => ⟨fun h => if_pos h, fun h => if_neg (ne_true_of_eq_false h)⟩

/-- Settles O54: the address is checked and its cell read, whatever the status. -/
theorem readMemoryReturnsTheCell : Obligations.ReadMemoryReturnsTheCell := by
  exact fun s a => ⟨fun h => if_pos h, fun h => if_neg (ne_true_of_eq_false h)⟩

end Sys2Proof.Machine
end

section
/-! SUPPORT. Proofs about the arithmetic (41_arithmetic.md): what ADD and MUL write, and when an exact result overflows. -/

namespace Sys2Proof

/-! ### What the cells of an opcode decode to (R87, R97) -/

theorem Mode.isDestination_iff {m : Mode} : m.isDestination = true ↔ m ≠ .immediate := by
  cases m <;> decide

/-- An instruction's own cell decodes to it (R97). -/
theorem decode_encode {i : Instr} (hw : i.wellFormed = true) : decode (encode i) = .ok i := by
  revert hw
  cases i
  case add m1 m2 m3 | mul m1 m2 m3 | lessThan m1 m2 m3 | equals m1 m2 m3 =>
    cases m1 <;> cases m2 <;> cases m3 <;> decide
  case jumpIfTrue m1 m2 | jumpIfFalse m1 m2 => cases m1 <;> cases m2 <;> decide
  case input m1 | output m1 | adjustRelativeBase m1 => cases m1 <;> decide
  case halt => decide

/-- The checks of an opcode raise two of the faults: a mode digit is refused, or the destination's mode is. -/
theorem Refuses.cause {v n : Nat} {dst : Option Nat} {c : FaultCause} (h : Refuses v n dst c) :
    (∃ p d, c = .invalidParameterMode v p d) ∨ ∃ p, dst = some p ∧ c = .invalidDestinationMode v p := by
  obtain ⟨k, -, -, hm⟩ | ⟨-, hx | ⟨-, p, hp, -, hc⟩⟩ := h
  · exact .inl ⟨_, _, (modeAt_error.1 hm).2⟩
  · exact .inl ⟨_, _, (noExcessDigits_error.1 hx).2⟩
  · exact .inr ⟨p, hp, hc⟩

/-- Every cell whose opcode has format SSD yields its instruction or one of the format's two faults. -/
theorem decodeSSD_answers (v : Nat) (mk : Mode → Mode → Mode → Instr) :
    (∃ m1 m2 m3, m3 ≠ .immediate ∧ decodeSSD v mk = .ok (mk m1 m2 m3)) ∨
    (∃ p d, decodeSSD v mk = .error (.invalidParameterMode v p d)) ∨
    decodeSSD v mk = .error (.invalidDestinationMode v 3) := by
  rcases h : decodeSSD v mk with c | i
  · refine .inr ((decodeSSD_refuses.1 h).cause.imp ?_ ?_)
    · rintro ⟨p, d, rfl⟩; exact ⟨p, d, rfl⟩
    · rintro ⟨p, hp, rfl⟩; cases hp; rfl
  · obtain ⟨m1, m2, m3, -, -, -, -, hm, rfl⟩ := decodeSSD_ok.1 h
    exact .inl ⟨m1, m2, m3, Mode.isDestination_iff.1 hm, rfl⟩

theorem decode_ne_arithmeticOverflow {v r : Int} : decode v ≠ .error (.arithmeticOverflow r) := by
  intro h
  obtain ⟨-, hc⟩ | ⟨-, n, -, hr⟩ := decode_error.1 h
  · cases hc
  · obtain ⟨p, d, hc⟩ | ⟨p, -, hc⟩ := hr.cause <;> cases hc

end Sys2Proof

namespace Sys2Proof.Machine

/-! ### What the checks before a commit refuse (R119, R199) -/

theorem checkCell_error {x : Option Int} {c : FaultCause} :
    checkCell x = .error c ↔ ∃ v, x = some v ∧ fitsCell v = false ∧ c = .arithmeticOverflow v := by
  cases x with
  | none => simp [checkCell]
  | some v => cases hv : fitsCell v <;> simp [checkCell, hv, @eq_comm _ c]

theorem checkNextPc_error {x : Option Int} {c : FaultCause} :
    checkNextPc x = .error c ↔ ∃ a, x = some a ∧ isAddr a = false ∧ c = .invalidAddress a := by
  cases x with
  | none => simp [checkNextPc]
  | some a => cases ha : isAddr a <;> simp [checkNextPc, ha, @eq_comm _ c]

/-- The checks fail with the first failure in their order. -/
theorem checkUpdate_error {u : Update} {c : FaultCause} : checkUpdate u = .error c ↔
    checkCell (u.memWrite.map (·.2)) = .error c ∨ checkCell (u.memWrite.map (·.2)) = .ok () ∧
      (checkCell u.newRb = .error c ∨ checkCell u.newRb = .ok () ∧ checkNextPc u.nextPc = .error c) := by
  simp only [checkUpdate, except_bind_error, Unique.exists_iff, PUnit.default_eq_unit]

/-- An overflow is the overflow of the exact value the update puts in a cell or in `rb` (R142). -/
theorem checkUpdate_arithmeticOverflow {u : Update} {r : Int} (h : checkUpdate u = .error (.arithmeticOverflow r)) :
    fitsCell r = false ∧ (u.memWrite.map (·.2) = some r ∨ u.newRb = some r) := by
  obtain hm | ⟨-, hb | ⟨-, hp⟩⟩ := checkUpdate_error.1 h
  · obtain ⟨v, hv, hfit, hc⟩ := checkCell_error.1 hm
    cases hc; exact ⟨hfit, .inl hv⟩
  · obtain ⟨v, hv, hfit, hc⟩ := checkCell_error.1 hb
    cases hc; exact ⟨hfit, .inr hv⟩
  · obtain ⟨a, -, -, hc⟩ := checkNextPc_error.1 hp
    cases hc

/-! ### ADD and MUL (R140, R141) -/

/-- How an instruction ends that stores `v` at `d` and goes on four cells further: it commits, or takes the overflow of `v`, or else
the fault of its next `pc`. -/
theorem exec_of_store {i : Instr} {s : State} {d : Nat} {v : Int}
    (h : instrCycle i s = .ok { result := .continue, memWrite := some (d, v), nextPc := some (s.pc + 4) }) :
    (fitsCell v = true → isAddr (s.pc + 4) = true →
      exec i s = .next { s with mem := s.mem.write d v, pc := s.pc + 4 }) ∧
    (fitsCell v = false → exec i s = .next (faultEntry (.arithmeticOverflow v) s)) ∧
    (fitsCell v = true → isAddr (s.pc + 4) = false → exec i s = .next (faultEntry (.invalidAddress (s.pc + 4)) s)) := by
  refine ⟨fun hv hpc => ?_, fun hv => ?_, fun hv hpc => ?_⟩
  · exact exec_of_ok h nofun (checkUpdate_ok.2 ⟨by simpa, nofun, by simpa⟩)
  · exact exec_of_check_error h nofun (checkUpdate_error.2 (.inl (checkCell_of_not_fits hv)))
  · exact exec_of_check_error h nofun
      (checkUpdate_error.2 (.inr ⟨checkCell_of_fits hv, .inr ⟨rfl, checkNextPc_of_not_isAddr hpc⟩⟩))

section Resolved
variable {s : State} {m1 m2 m3 : Mode} {a b : Int} {d : Nat}

theorem instrCycle_add (h : operandsSSD s m1 m2 m3 = .ok (a, b, d)) :
    instrCycle (.add m1 m2 m3) s = .ok (addUpdate a b d s.pc) :=
  except_bind_ok.2 ⟨(a, b, d), h, rfl⟩

theorem instrCycle_mul (h : operandsSSD s m1 m2 m3 = .ok (a, b, d)) :
    instrCycle (.mul m1 m2 m3) s = .ok (mulUpdate a b d s.pc) :=
  except_bind_ok.2 ⟨(a, b, d), h, rfl⟩

end Resolved

/-- Settles O15: opcode 1 has format SSD, and ADD stores the exact sum of its operands. -/
theorem addWritesTheExactSum : Obligations.AddWritesTheExactSum := by
  refine ⟨fun v hv => ?_, fun m1 m2 m3 s hm => ⟨decode_encode (i := .add m1 m2 m3) (Mode.isDestination_iff.2 hm),
    fun c => exec_of_operandsSSD_raised (by simp), fun a b d h => exec_of_store (instrCycle_add h)⟩⟩
  rw [decode_natCast, decodeNat, hv]
  exact decodeSSD_answers v .add

/-- Settles O16: opcode 2 has format SSD, and MUL stores the exact product of its operands. -/
theorem mulWritesTheExactProduct : Obligations.MulWritesTheExactProduct := by
  refine ⟨fun v hv => ?_, fun m1 m2 m3 s hm => ⟨decode_encode (i := .mul m1 m2 m3) (Mode.isDestination_iff.2 hm),
    fun c => exec_of_operandsSSD_raised (by simp), fun a b d h => exec_of_store (instrCycle_mul h)⟩⟩
  rw [decode_natCast, decodeNat, hv]
  exact decodeSSD_answers v .mul

/-! ### What else a cycle can fault with -/

section Raised
variable {s : State} {k : Nat} {m m1 m2 m3 : Mode} {c : FaultCause}

theorem param_error (h : param s k = .error c) : ∃ a, c = .invalidAddress a :=
  ⟨_, (memRead_error.1 h).2⟩

theorem srcValue_error {p : Int} (h : srcValue s p m = .error c) : ∃ a, c = .invalidAddress a := by
  cases m with
  | position => exact ⟨_, (memRead_error.1 h).2⟩
  | immediate => cases h
  | relative => exact ⟨_, (memRead_error.1 h).2⟩

theorem dstAddr_raised {p : Int} (h : dstAddr s p m = .error (.raised c)) : ∃ a, c = .invalidAddress a := by
  cases m with
  | position => exact ⟨_, Abort.raised.inj (asAddr_error h)⟩
  | immediate => cases h
  | relative => exact ⟨_, Abort.raised.inj (asAddr_error h)⟩

theorem srcOperand_raised (h : srcOperand s k m = .error (.raised c)) : ∃ a, c = .invalidAddress a := by
  rcases hp : param s k with e | p
  · rw [srcOperand_param_error hp] at h; cases h; exact param_error hp
  · rw [srcOperand_of_param hp, raising_error] at h
    obtain ⟨e, he, hc⟩ := h
    cases hc; exact srcValue_error he

theorem dstOperand_raised (h : dstOperand s k m = .error (.raised c)) : ∃ a, c = .invalidAddress a := by
  rcases hp : param s k with e | p
  · rw [dstOperand_param_error hp] at h; cases h; exact param_error hp
  · rw [dstOperand_of_param hp] at h; exact dstAddr_raised h

theorem operandsSSD_raised (h : operandsSSD s m1 m2 m3 = .error (.raised c)) : ∃ a, c = .invalidAddress a := by
  obtain h1 | ⟨-, -, h2⟩ | ⟨-, -, -, -, h3⟩ := operandsSSD_eq_error.1 h
  · exact srcOperand_raised h1
  · exact srcOperand_raised h2
  · exact dstOperand_raised h3

theorem operandsSS_raised (h : operandsSS s m1 m2 = .error (.raised c)) : ∃ a, c = .invalidAddress a := by
  obtain h1 | ⟨-, -, h2⟩ := operandsSS_eq_error.1 h
  · exact srcOperand_raised h1
  · exact srcOperand_raised h2

/-- Before its update an instruction faults only with an integer that is no address (R113). -/
theorem instrCycle_raised {i : Instr} (h : instrCycle i s = .error (.raised c)) : ∃ a, c = .invalidAddress a := by
  cases i with
  | add | mul | lessThan | equals => exact operandsSSD_raised (error_of_bind_error h fun _ => nofun)
  | jumpIfTrue | jumpIfFalse => exact operandsSS_raised (error_of_bind_error h fun _ => nofun)
  | output | adjustRelativeBase => exact srcOperand_raised (error_of_bind_error h fun _ => nofun)
  | input => exact dstOperand_raised (error_of_bind_error h fun _ => nofun)
  | halt => cases h

theorem fetchDecode_ne_arithmeticOverflow {r : Int} : fetchDecode s ≠ .error (.arithmeticOverflow r) := by
  intro h
  unfold fetchDecode at h
  split at h
  · cases h; cases (memRead_error.1 ‹_›).2
  · exact decode_ne_arithmeticOverflow h

/-- The three places where a cycle can fault: at the decoder, at its operands, and at the checks before the commit (R119). -/
theorem cycle_fault {t : State} (h : cycle s = .next (.fault c, t)) :
    fetchDecode s = .error c ∨ ∃ i, fetchDecode s = .ok i ∧
      (instrCycle i s = .error (.raised c) ∨ ∃ u, instrCycle i s = .ok u ∧ checkUpdate u = .error c) := by
  have hs := cycle_ready h
  rcases hf : fetchDecode s with e | i
  · unfold cycle at h
    rw [hs, hf] at h
    cases h; exact .inl rfl
  rw [cycle_of_decoded hs hf] at h
  refine .inr ⟨i, rfl, ?_⟩
  rcases settle_next h with ⟨e, hi, hr, -⟩ | ⟨u, -, -, hr, -⟩ | ⟨u, e, hi, -, hu, hr, -⟩ | ⟨u, hi, hn, -, hr, -⟩
  · cases hr; exact .inl hi
  · cases hr
  · cases hr; exact .inr ⟨u, hi, hu⟩
  · rcases instrCycle_event hi with ⟨hr', -⟩ | hr' | ⟨m, v, -, -, rfl⟩ | ⟨-, rfl⟩
    · cases hr.trans hr'
    · exact absurd hr' hn
    · cases hr
    · cases hr

end Raised

/-! ### The overflow (R142) -/

theorem fitsCell_outcomeCell (b : Bool) : fitsCell (outcomeCell b) = true := by
  cases b <;> decide

/-- `i` computes the exact sum, product or new base `r` on `s`. -/
def ComputesExactly (i : Instr) (s : State) (r : Int) : Prop :=
  (∃ m1 m2 m3 a b d, i = .add m1 m2 m3 ∧ operandsSSD s m1 m2 m3 = .ok (a, b, d) ∧ r = a + b) ∨
  (∃ m1 m2 m3 a b d, i = .mul m1 m2 m3 ∧ operandsSSD s m1 m2 m3 = .ok (a, b, d) ∧ r = a * b) ∨
  (∃ m1 a, i = .adjustRelativeBase m1 ∧ srcOperand s 1 m1 = .ok a ∧ r = s.rb + a)

/-- With cells in the queue only a sum, a product or a new base can be no cell: the comparisons store 0 or 1, IN a queued value. -/
theorem computesExactly_of_overflow {i : Instr} {s : State} {u : Update} {r : Int}
    (hq : ∀ v ∈ s.inq, fitsCell v = true) (hi : instrCycle i s = .ok u) (hr : fitsCell r = false)
    (hu : u.memWrite.map (·.2) = some r ∨ u.newRb = some r) : ComputesExactly i s r := by
  have hi := instrCycle_ok hi
  cases i with
  | add m1 m2 m3 =>
    obtain ⟨a, b, d, ho, rfl⟩ := hi
    obtain rfl : a + b = r := by simpa [addUpdate] using hu
    exact .inl ⟨m1, m2, m3, a, b, d, rfl, ho, rfl⟩
  | mul m1 m2 m3 =>
    obtain ⟨a, b, d, ho, rfl⟩ := hi
    obtain rfl : a * b = r := by simpa [mulUpdate] using hu
    exact .inr (.inl ⟨m1, m2, m3, a, b, d, rfl, ho, rfl⟩)
  | adjustRelativeBase m1 =>
    obtain ⟨a, ho, rfl⟩ := hi
    obtain rfl : s.rb + a = r := by simpa [adjustRelativeBaseUpdate] using hu
    exact .inr (.inr ⟨m1, a, rfl, ho, rfl⟩)
  | lessThan =>
    obtain ⟨a, b, d, -, rfl⟩ := hi
    obtain rfl : outcomeCell (isLess a b) = r := by simpa [lessThanUpdate] using hu
    exact absurd (fitsCell_outcomeCell _) (ne_true_of_eq_false hr)
  | equals =>
    obtain ⟨a, b, d, -, rfl⟩ := hi
    obtain rfl : outcomeCell (isEqual a b) = r := by simpa [equalsUpdate] using hu
    exact absurd (fitsCell_outcomeCell _) (ne_true_of_eq_false hr)
  | input =>
    obtain ⟨d, -, rfl⟩ := hi
    cases hinq : s.inq with
    | nil => simp [hinq, inputUpdate] at hu
    | cons v q =>
      obtain rfl : v = r := by simpa [hinq, inputUpdate] using hu
      exact absurd (hq v (hinq ▸ List.mem_cons_self)) (ne_true_of_eq_false hr)
  | jumpIfTrue => obtain ⟨a, b, -, rfl⟩ := hi; simp [jumpIfTrueUpdate] at hu
  | jumpIfFalse => obtain ⟨a, b, -, rfl⟩ := hi; simp [jumpIfFalseUpdate] at hu
  | output => obtain ⟨a, -, rfl⟩ := hi; simp [outputUpdate] at hu
  | halt => simp [hi, haltUpdate] at hu

/-- Settles O26: the checks raise the overflow of the value they are given, and the decoder and the operands never raise one. -/
theorem overflowIsRaisedNotWrapped : Obligations.OverflowIsRaisedNotWrapped := by
  refine ⟨fun m1 m2 m3 s a b d h => ⟨?_, ?_⟩, fun m1 s a h hr => ?_, fun s t r hq h => ?_, fitsCellOf_inf⟩
  · exact (exec_of_store (instrCycle_add h)).2.1
  · exact (exec_of_store (instrCycle_mul h)).2.1
  · have hi : instrCycle (.adjustRelativeBase m1) s = .ok (adjustRelativeBaseUpdate a s.rb s.pc) :=
      except_bind_ok.2 ⟨a, h, rfl⟩
    exact exec_of_check_error hi nofun (checkUpdate_error.2 (.inr ⟨rfl, .inl (checkCell_of_not_fits hr)⟩))
  · obtain hd | ⟨i, hf, hi | ⟨u, hi, hu⟩⟩ := cycle_fault h
    · exact absurd hd fetchDecode_ne_arithmeticOverflow
    · obtain ⟨a, hc⟩ := instrCycle_raised hi
      cases hc
    · obtain ⟨hr, hnew⟩ := checkUpdate_arithmeticOverflow hu
      exact ⟨hr, i, hf, computesExactly_of_overflow hq hi hr hnew⟩

end Sys2Proof.Machine
end

section
/-! SUPPORT. Proofs about input and output (42_io.md): what IN stores and when it waits, and what OUT appends. -/

namespace Sys2Proof

/-! ### What the cells of an opcode with one parameter decode to (R87) -/

/-- Every cell whose opcode has format D yields its instruction or one of the format's two faults. -/
theorem decodeD_answers (v : Nat) (mk : Mode → Instr) :
    (∃ m1, m1 ≠ .immediate ∧ decodeD v mk = .ok (mk m1)) ∨
    (∃ p d, decodeD v mk = .error (.invalidParameterMode v p d)) ∨
    decodeD v mk = .error (.invalidDestinationMode v 1) := by
  rcases h : decodeD v mk with c | i
  · refine .inr ((decodeD_refuses.1 h).cause.imp ?_ ?_)
    · rintro ⟨p, d, rfl⟩; exact ⟨p, d, rfl⟩
    · rintro ⟨p, hp, rfl⟩; cases hp; rfl
  · obtain ⟨m1, -, -, hm, rfl⟩ := decodeD_ok.1 h
    exact .inl ⟨m1, Mode.isDestination_iff.1 hm, rfl⟩

/-- Every cell whose opcode has format S yields its instruction or a fault of its mode digits. -/
theorem decodeS_answers (v : Nat) (mk : Mode → Instr) :
    (∃ m1, decodeS v mk = .ok (mk m1)) ∨ (∃ p d, decodeS v mk = .error (.invalidParameterMode v p d)) := by
  rcases h : decodeS v mk with c | i
  · obtain ⟨p, d, rfl⟩ | ⟨p, hp, -⟩ := (decodeS_refuses.1 h).cause
    · exact .inr ⟨p, d, rfl⟩
    · cases hp
  · obtain ⟨m1, -, -, rfl⟩ := decodeS_ok.1 h
    exact .inl ⟨m1, rfl⟩

end Sys2Proof

namespace Sys2Proof.Machine

/-! ### The cycle of a Ready core, by how it ends (R119), and `step()` where its first cycle is visible (R124) -/

section Cycle
variable {i : Instr} {s : State} {u : Update} {c : FaultCause}

theorem cycle_of_fetch_error (hs : s.status = .ready) (hf : fetchDecode s = .error c) :
    cycle s = .next (.fault c, faultEntry c s) := by
  unfold cycle; rw [hs, hf]

theorem cycle_of_raised (hs : s.status = .ready) (hf : fetchDecode s = .ok i)
    (h : instrCycle i s = .error (.raised c)) : cycle s = .next (.fault c, faultEntry c s) := by
  rw [cycle_of_decoded hs hf, h]; rfl

theorem cycle_of_ok (hs : s.status = .ready) (hf : fetchDecode s = .ok i) (h : instrCycle i s = .ok u)
    (hr : u.result ≠ .needMoreInput) (hc : checkUpdate u = .ok ()) : cycle s = .next (u.result, commit u s) := by
  rw [cycle_of_decoded hs hf, h, settle_of_ok hr hc]

theorem settle_of_wait (hr : u.result = .needMoreInput) : settle s (.ok u) = .next (.needMoreInput, s) :=
  if_pos hr

/-- Where the first cycle has a visible result, `step()` returns that result and no other. -/
theorem stepReturns_of_visible {t t' : State} {r r' : Result} (hc : cycle s = .next (r, t)) (hr : r ≠ .continue) :
    StepReturns s r' t' ↔ r' = r ∧ t' = t := by
  constructor
  · intro h
    obtain ⟨r1, s1, hc1, hstep⟩ := stepReturns_iff.1 h
    cases hc.symm.trans hc1
    obtain ⟨hcont, -⟩ | ⟨-, heq⟩ := hstep
    · exact absurd hcont hr
    · exact heq
  · rintro ⟨rfl, rfl⟩
    exact .visible hc hr

end Cycle

/-! ### IN and OUT with their operand resolved (R150 to R152) -/

section Resolved
variable {s : State} {m1 : Mode} {c : FaultCause} {d : Nat} {a v : Int} {q : List Int}

theorem instrCycle_input (h : dstOperand s 1 m1 = .ok d) :
    instrCycle (.input m1) s = .ok (inputUpdate d s.inq s.pc) :=
  except_bind_ok.2 ⟨d, h, rfl⟩

theorem instrCycle_input_raised (h : dstOperand s 1 m1 = .error (.raised c)) :
    instrCycle (.input m1) s = .error (.raised c) :=
  except_bind_error.2 (.inl h)

theorem instrCycle_output (h : srcOperand s 1 m1 = .ok a) :
    instrCycle (.output m1) s = .ok (outputUpdate a s.pc) :=
  except_bind_ok.2 ⟨a, h, rfl⟩

/-- On an empty queue the cycle of an IN ends with NeedMoreInput and the state as it was (R151). -/
theorem settle_input_wait (h : dstOperand s 1 m1 = .ok d) (hq : s.inq = []) :
    settle s (instrCycle (.input m1) s) = .next (.needMoreInput, s) := by
  rw [instrCycle_input h, hq]
  exact settle_of_wait rfl

theorem exec_input_wait (h : dstOperand s 1 m1 = .ok d) (hq : s.inq = []) : exec (.input m1) s = .next s := by
  rw [exec_eq, settle_input_wait h hq]; rfl

/-- An IN stores a queued cell wherever the next `pc` is an address (R150). -/
theorem exec_input_store (h : dstOperand s 1 m1 = .ok d) (hq : s.inq = v :: q) (hv : fitsCell v = true)
    (hpc : isAddr (s.pc + 2) = true) :
    exec (.input m1) s = .next { s with mem := s.mem.write d v, inq := q, pc := s.pc + 2 } := by
  have hu := instrCycle_input h
  have htail : s.inq.tail = q := by rw [hq]; rfl
  rw [hq] at hu
  rw [exec_of_ok hu nofun (checkUpdate_ok.2 ⟨by simpa [inputUpdate], nofun, by simpa [inputUpdate]⟩), ← htail]
  rfl

/-- Its next `pc` is checked after the value, and then nothing is consumed (R150). -/
theorem exec_input_no_next_pc (h : dstOperand s 1 m1 = .ok d) (hq : s.inq = v :: q) (hv : fitsCell v = true)
    (hpc : isAddr (s.pc + 2) = false) : exec (.input m1) s = .next (faultEntry (.invalidAddress (s.pc + 2)) s) := by
  have hu := instrCycle_input h
  rw [hq] at hu
  exact exec_of_check_error hu nofun
    (checkUpdate_error.2 (.inr ⟨checkCell_of_fits hv, .inr ⟨rfl, checkNextPc_of_not_isAddr hpc⟩⟩))

/-- The update of an OUT has only its next `pc` to check (R152). -/
theorem checkUpdate_outputUpdate (a : Int) (pc : Nat) :
    checkUpdate (outputUpdate a pc) = checkNextPc (some (pc + 2)) := rfl

end Resolved

/-- Settles O17: opcode 3 has format D, and IN waits on an empty queue, else stores its head. -/
theorem inputStoresTheOldestValue : Obligations.InputStoresTheOldestValue := by
  refine ⟨fun v hv => ?_, fun m1 s hm => ⟨decode_encode (i := .input m1) (Mode.isDestination_iff.2 hm),
    fun c h => exec_of_raised (instrCycle_input_raised h), fun d => exec_input_wait,
    fun d v q h hq hv => ⟨exec_input_store h hq hv, exec_input_no_next_pc h hq hv⟩⟩⟩
  rw [decode_natCast, decodeNat, hv]
  exact decodeD_answers v .input

/-- Settles O18: the cycle of a waiting IN is visible, so `step()` ends with it; the faults are those of the cycle. -/
theorem inputWaitsOnAnEmptyQueue : Obligations.InputWaitsOnAnEmptyQueue := by
  refine ⟨fun m1 s hq => ⟨fun d h => ⟨exec_input_wait h hq, fun hs hf => ?_⟩, fun c h => ?_⟩,
    fun s c _ hs hf => .visible (cycle_of_fetch_error hs hf) nofun⟩
  · have hc : cycle s = .next (.needMoreInput, s) := (cycle_of_decoded hs hf).trans (settle_input_wait h hq)
    exact ⟨.visible hc nofun, fun r t => (stepReturns_of_visible hc nofun).1⟩
  · have hi := instrCycle_input_raised h
    exact ⟨exec_of_raised hi, fun hs hf => .visible (cycle_of_raised hs hf hi) nofun⟩

/-- Settles O19: opcode 4 has format S, and OUT's one check is that of its next `pc`. -/
theorem outputAppendsItsOperand : Obligations.OutputAppendsItsOperand := by
  refine ⟨fun v hv => ?_, fun m1 s => ⟨decode_encode (i := .output m1) rfl,
    fun c => exec_of_source_raised (by simp), fun a h => ⟨fun hpc => ?_, fun hpc => ?_⟩⟩⟩
  · rw [decode_natCast, decodeNat, hv]
    exact decodeS_answers v .output
  · have hi := instrCycle_output h
    have hcheck := (checkUpdate_outputUpdate a s.pc).trans (checkNextPc_of_isAddr hpc)
    exact ⟨exec_of_ok hi nofun hcheck, fun hs hf => .visible (cycle_of_ok hs hf hi nofun hcheck) nofun⟩
  · exact exec_of_check_error (instrCycle_output h) nofun
      ((checkUpdate_outputUpdate a s.pc).trans (checkNextPc_of_not_isAddr hpc))

end Sys2Proof.Machine
end

section
/-! SUPPORT. Proofs about the jumps (43_jumps.md): where JT and JF go. -/

namespace Sys2Proof

/-- Every cell whose opcode has format SS yields its instruction or a fault of its mode digits (R87). -/
theorem decodeSS_answers (v : Nat) (mk : Mode → Mode → Instr) :
    (∃ m1 m2, decodeSS v mk = .ok (mk m1 m2)) ∨ (∃ p d, decodeSS v mk = .error (.invalidParameterMode v p d)) := by
  rcases h : decodeSS v mk with c | i
  · obtain ⟨p, d, rfl⟩ | ⟨p, hp, -⟩ := (decodeSS_refuses.1 h).cause
    · exact .inr ⟨p, d, rfl⟩
    · cases hp
  · obtain ⟨m1, m2, -, -, -, rfl⟩ := decodeSS_ok.1 h
    exact .inl ⟨m1, m2, rfl⟩

end Sys2Proof

namespace Sys2Proof.Machine

/-! ### An instruction that only moves `pc` (R160 to R162) -/

section MovesPc
variable {i : Instr} {s : State} {next : Option Int} {a : Int}

/-- It goes to its next `pc` wherever that is an address, and changes nothing else. -/
theorem exec_of_next_pc (hi : instrCycle i s = .ok { result := .continue, nextPc := next }) (hn : next = some a)
    (ha : isAddr a = true) : exec i s = .next { s with pc := a.toNat } := by
  subst hn
  exact exec_of_ok hi nofun (checkNextPc_of_isAddr ha)

/-- Its next `pc` is the one value its commit checks. -/
theorem exec_of_no_next_pc (hi : instrCycle i s = .ok { result := .continue, nextPc := next }) (hn : next = some a)
    (ha : isAddr a = false) : exec i s = .next (faultEntry (.invalidAddress a) s) := by
  subst hn
  exact exec_of_check_error hi nofun (checkNextPc_of_not_isAddr ha)

end MovesPc

section Resolved
variable {s : State} {m1 m2 : Mode} {cond target : Int}

theorem instrCycle_jumpIfTrue (h : operandsSS s m1 m2 = .ok (cond, target)) :
    instrCycle (.jumpIfTrue m1 m2) s = .ok (jumpIfTrueUpdate cond target s.pc) :=
  except_bind_ok.2 ⟨(cond, target), h, rfl⟩

theorem instrCycle_jumpIfFalse (h : operandsSS s m1 m2 = .ok (cond, target)) :
    instrCycle (.jumpIfFalse m1 m2) s = .ok (jumpIfFalseUpdate cond target s.pc) :=
  except_bind_ok.2 ⟨(cond, target), h, rfl⟩

end Resolved

/-- Settles O20: opcode 5 has format SS, and JT's next `pc` is its target where the condition is not 0, else `pc + 3`. -/
theorem jumpIfTrueJumpsOnNonZero : Obligations.JumpIfTrueJumpsOnNonZero := by
  refine ⟨fun v hv => ?_, fun m1 m2 s => ⟨decode_encode (i := .jumpIfTrue m1 m2) rfl,
    fun c => exec_of_operandsSS_raised (by simp), fun cond target h => ?_⟩⟩
  · rw [decode_natCast, decodeNat, hv]
    exact decodeSS_answers v .jumpIfTrue
  · have hi := instrCycle_jumpIfTrue h
    exact ⟨fun hc => exec_of_next_pc hi (jumpIfTrueUpdate_taken hc),
      fun hc => exec_of_no_next_pc hi (jumpIfTrueUpdate_taken hc),
      fun hc => exec_of_next_pc hi (jumpIfTrueUpdate_not_taken hc),
      fun hc => exec_of_no_next_pc hi (jumpIfTrueUpdate_not_taken hc)⟩

/-- Settles O21: opcode 6 has format SS, and JF's next `pc` is its target where the condition is 0, else `pc + 3`. -/
theorem jumpIfFalseJumpsOnZero : Obligations.JumpIfFalseJumpsOnZero := by
  refine ⟨fun v hv => ?_, fun m1 m2 s => ⟨decode_encode (i := .jumpIfFalse m1 m2) rfl,
    fun c => exec_of_operandsSS_raised (by simp), fun cond target h => ?_⟩⟩
  · rw [decode_natCast, decodeNat, hv]
    exact decodeSS_answers v .jumpIfFalse
  · have hi := instrCycle_jumpIfFalse h
    exact ⟨fun hc => exec_of_next_pc hi (jumpIfFalseUpdate_taken hc),
      fun hc => exec_of_no_next_pc hi (jumpIfFalseUpdate_taken hc),
      fun hc => exec_of_next_pc hi (jumpIfFalseUpdate_not_taken hc),
      fun hc => exec_of_no_next_pc hi (jumpIfFalseUpdate_not_taken hc)⟩

end Sys2Proof.Machine
end

section
/-! SUPPORT. Proofs about the comparisons (44_compare.md): what LT and EQ write. -/

namespace Sys2Proof.Machine

/-! ### The outcome as a cell (R170, R171) -/

theorem outcomeCell_isLess (a b : Int) : outcomeCell (isLess a b) = if a < b then 1 else 0 := by
  simp only [outcomeCell, isLess, decide_eq_true_eq]

theorem outcomeCell_isEqual (a b : Int) : outcomeCell (isEqual a b) = if a = b then 1 else 0 := by
  simp only [outcomeCell, isEqual, decide_eq_true_eq]

/-- An instruction that stores an outcome never overflows, so its next `pc` alone says how it ends. -/
theorem exec_of_store_outcome {i : Instr} {s : State} {d : Nat} {p : Bool}
    (h : instrCycle i s = .ok { result := .continue, memWrite := some (d, outcomeCell p), nextPc := some (s.pc + 4) }) :
    (isAddr (s.pc + 4) = true → exec i s = .next { s with mem := s.mem.write d (outcomeCell p), pc := s.pc + 4 }) ∧
    (isAddr (s.pc + 4) = false → exec i s = .next (faultEntry (.invalidAddress (s.pc + 4)) s)) := by
  obtain ⟨hstore, -, hpc⟩ := exec_of_store h
  exact ⟨hstore (fitsCell_outcomeCell p), hpc (fitsCell_outcomeCell p)⟩

section Resolved
variable {s : State} {m1 m2 m3 : Mode} {a b : Int} {d : Nat}

theorem instrCycle_lessThan (h : operandsSSD s m1 m2 m3 = .ok (a, b, d)) :
    instrCycle (.lessThan m1 m2 m3) s = .ok (lessThanUpdate a b d s.pc) :=
  except_bind_ok.2 ⟨(a, b, d), h, rfl⟩

theorem instrCycle_equals (h : operandsSSD s m1 m2 m3 = .ok (a, b, d)) :
    instrCycle (.equals m1 m2 m3) s = .ok (equalsUpdate a b d s.pc) :=
  except_bind_ok.2 ⟨(a, b, d), h, rfl⟩

end Resolved

/-- Settles O22: opcode 7 has format SSD, and LT stores the outcome of `a < b`, which fits every cell. -/
theorem lessThanWritesOneOrZero : Obligations.LessThanWritesOneOrZero := by
  refine ⟨fun v hv => ?_, fun m1 m2 m3 s hm => ⟨decode_encode (i := .lessThan m1 m2 m3) (Mode.isDestination_iff.2 hm),
    fun c => exec_of_operandsSSD_raised (by simp), fun a b d h => ?_⟩⟩
  · rw [decode_natCast, decodeNat, hv]
    exact decodeSSD_answers v .lessThan
  · rw [← outcomeCell_isLess]
    exact exec_of_store_outcome (instrCycle_lessThan h)

/-- Settles O23: opcode 8 has format SSD, and EQ stores the outcome of `a = b`, which fits every cell. -/
theorem equalsWritesOneOrZero : Obligations.EqualsWritesOneOrZero := by
  refine ⟨fun v hv => ?_, fun m1 m2 m3 s hm => ⟨decode_encode (i := .equals m1 m2 m3) (Mode.isDestination_iff.2 hm),
    fun c => exec_of_operandsSSD_raised (by simp), fun a b d h => ?_⟩⟩
  · rw [decode_natCast, decodeNat, hv]
    exact decodeSSD_answers v .equals
  · rw [← outcomeCell_isEqual]
    exact exec_of_store_outcome (instrCycle_equals h)

end Sys2Proof.Machine
end

section
/-! SUPPORT. Proofs about the relative base (45_relbase.md): what ARB writes. -/

namespace Sys2Proof.Machine

section Resolved
variable {s : State} {m1 : Mode} {a : Int}

theorem instrCycle_adjustRelativeBase (h : srcOperand s 1 m1 = .ok a) :
    instrCycle (.adjustRelativeBase m1) s = .ok (adjustRelativeBaseUpdate a s.rb s.pc) :=
  except_bind_ok.2 ⟨a, h, rfl⟩

/-- Where the sum is a cell and the next `pc` an address, an ARB commits both and nothing else (R180). -/
theorem exec_adjustRelativeBase_commit (h : srcOperand s 1 m1 = .ok a) (hb : fitsCell (s.rb + a) = true)
    (hpc : isAddr (s.pc + 2) = true) :
    exec (.adjustRelativeBase m1) s = .next { s with rb := s.rb + a, pc := s.pc + 2 } :=
  exec_of_ok (instrCycle_adjustRelativeBase h) nofun
    (checkUpdate_ok.2 ⟨nofun, by simpa [adjustRelativeBaseUpdate], by simpa [adjustRelativeBaseUpdate]⟩)

/-- The new base is the first value an ARB's commit checks (R180, R142). -/
theorem exec_adjustRelativeBase_overflow (h : srcOperand s 1 m1 = .ok a) (hb : fitsCell (s.rb + a) = false) :
    exec (.adjustRelativeBase m1) s = .next (faultEntry (.arithmeticOverflow (s.rb + a)) s) :=
  exec_of_check_error (instrCycle_adjustRelativeBase h) nofun
    (checkUpdate_error.2 (.inr ⟨rfl, .inl (checkCell_of_not_fits hb)⟩))

/-- Its next `pc` is checked after the new base (R180). -/
theorem exec_adjustRelativeBase_no_next_pc (h : srcOperand s 1 m1 = .ok a) (hb : fitsCell (s.rb + a) = true)
    (hpc : isAddr (s.pc + 2) = false) :
    exec (.adjustRelativeBase m1) s = .next (faultEntry (.invalidAddress (s.pc + 2)) s) :=
  exec_of_check_error (instrCycle_adjustRelativeBase h) nofun
    (checkUpdate_error.2 (.inr ⟨rfl, .inr ⟨checkCell_of_fits hb, checkNextPc_of_not_isAddr hpc⟩⟩))

end Resolved

/-- Settles O24: opcode 9 has format S, and ARB's commit checks the exact sum, then the next `pc`. -/
theorem adjustRelativeBaseAddsItsOperand : Obligations.AdjustRelativeBaseAddsItsOperand := by
  refine ⟨fun v hv => ?_, fun m1 s => ⟨decode_encode (i := .adjustRelativeBase m1) rfl,
    fun c => exec_of_source_raised (by simp), fun a h => ⟨exec_adjustRelativeBase_commit h,
      exec_adjustRelativeBase_overflow h, exec_adjustRelativeBase_no_next_pc h⟩⟩⟩
  rw [decode_natCast, decodeNat, hv]
  exact decodeS_answers v .adjustRelativeBase

end Sys2Proof.Machine
end

section
/-! SUPPORT. Proofs about HLT (46_halt.md): which cell it is, and what it leaves. -/

namespace Sys2Proof

/-- Where a cell is not its opcode alone, some digit above the opcode field is not 0 (R82, R92). -/
theorem digitsAbove_two_ne_zero {v c : Nat} (hop : v % 100 = c) (hv : v ≠ c) : digitsAbove v 2 ≠ 0 := by
  unfold digitsAbove
  omega

end Sys2Proof

namespace Sys2Proof.Machine

/-! ### HLT computes no new value, so no check of its commit can fail (R119, R185) -/

section Halt
variable (s : State)

theorem instrCycle_halt : instrCycle .halt s = .ok haltUpdate := rfl

theorem checkUpdate_haltUpdate : checkUpdate haltUpdate = .ok () := checkUpdate_ok.2 ⟨nofun, nofun, nofun⟩

theorem commit_haltUpdate : commit haltUpdate s = { s with status := .halted } := rfl

theorem exec_halt : exec .halt s = .next { s with status := .halted } := by
  rw [exec_of_ok (instrCycle_halt s) nofun checkUpdate_haltUpdate, commit_haltUpdate]

end Halt

theorem cycle_halt {s : State} (hs : s.status = .ready) (hf : fetchDecode s = .ok .halt) :
    cycle s = .next (.halt, { s with status := .halted }) := by
  rw [cycle_of_ok hs hf (instrCycle_halt s) nofun checkUpdate_haltUpdate, commit_haltUpdate]
  rfl

/-- Settles O25: the digits above opcode 99 are all excess digits, and the one visible cycle of HLT ends `step()`. -/
theorem haltEndsTheRun : Obligations.HaltEndsTheRun := by
  refine ⟨decode_encode (i := .halt) rfl, fun v hop hv => ?_, exec_halt, fun s hs hf => .visible (cycle_halt hs hf) nofun⟩
  have hn : nparamsOf (v % 100) = some 0 := by rw [hop]; rfl
  exact excessDigitsAreRefused v 0 hn (modeDigitsValid_zero v) (digitsAbove_two_ne_zero hop hv)

end Sys2Proof.Machine
end

section
/-! SUPPORT. Proofs about faults (60_exceptions.md): what a faulting cycle leaves. -/

namespace Sys2Proof.Machine

/-- A cycle that answers a fault has done its fault entry and nothing else (R198). -/
theorem eq_faultEntry_of_cycle {s t : State} {c : FaultCause} (h : cycle s = .next (.fault c, t)) :
    t = faultEntry c s := by
  rcases cycle_result h with ⟨hr, -⟩ | ⟨hr, -⟩ | ⟨_, _, hr, -⟩ | ⟨hr, -⟩ | ⟨d, hr, ht⟩
  case inr.inr.inr.inr => cases hr; exact ht
  all_goals cases hr

/-- No other result than a fault leaves the core Faulted (R32, R118). -/
theorem fault_of_cycle_faulted {s t : State} {r : Result} (h : cycle s = .next (r, t)) (ht : t.status = .faulted) :
    ∃ c, r = .fault c := by
  have hs := cycle_ready h
  rcases cycle_result h with ⟨-, hready, -⟩ | ⟨-, rfl, -⟩ | ⟨_, _, -, -, -, rfl⟩ | ⟨-, -, rfl⟩ | ⟨c, hr, -⟩
  · cases hready.symm.trans ht
  · cases hs.symm.trans ht
  · cases hs.symm.trans ht
  · cases ht
  · exact ⟨c, hr⟩

/-- Settles O38: the cycle of a step that ends Faulted answers a fault, which is visible, so `step()` returns it. -/
theorem faultsArePrecise : Obligations.FaultsArePrecise := by
  refine ⟨fun _ _ => rfl, fun s t c => eq_faultEntry_of_cycle, fun s t hstep ht => ?_⟩
  obtain ⟨r, hc⟩ := step_next.1 hstep
  obtain ⟨c, rfl⟩ := fault_of_cycle_faulted hc ht
  exact ⟨c, eq_faultEntry_of_cycle hc, .visible hc nofun⟩

end Sys2Proof.Machine
end

section
/-! SUPPORT. Proofs about the program text (70_reset_and_hazards.md section 2): the parser against the grammar. -/

namespace Sys2Proof.Machine

/-! ### The list of tokens -/

theorem parseTokens_cons_some {tok : List Char} {toks : List (List Char)} {P : List Int} :
    parseTokens (tok :: toks) = some P ↔
      ∃ v vs, parseToken tok = some v ∧ parseTokens toks = some vs ∧ P = v :: vs := by
  rw [parseTokens]
  split
  case h_1 v vs hv hvs => simp [hv, hvs, eq_comm]
  case h_2 hnone => exact iff_of_false nofun fun ⟨v, vs, hv, hvs, _⟩ => hnone v vs hv hvs

theorem parseTokens_singleton_some {tok : List Char} {P : List Int} :
    parseTokens [tok] = some P ↔ ∃ v, parseToken tok = some v ∧ P = [v] := by
  rw [parseTokens_cons_some]
  simp [parseTokens]

theorem TokenText.comma_not_mem {tok : List Char} {v : Int} (h : TokenText tok v) : ',' ∉ tok :=
  fun hc => ((tokenText_chars h).2 ',' hc).1 rfl

/-! ### Cutting a text that the grammar cuts, and back -/

/-- The last token of a text ends where its trailing blanks begin, and is one piece (R234). -/
theorem splitAt_dropTrailing_last {tok blanks : List Char} {v : Int} (htok : TokenText tok v)
    (hb : ∀ c ∈ blanks, c ∈ [' ', '\t', '\r', '\n']) : splitAt ',' (dropTrailing (tok ++ blanks)) = [tok] := by
  rw [dropTrailing_append (fun c hc => (isTrailing_iff c).2 (hb c hc)) fun c hc => ((tokenText_chars htok).2 c hc).2,
    splitAt_of_not_mem htok.comma_not_mem]

/-- A token before a comma is the first piece, and the pieces of the rest follow it (R234). -/
theorem splitAt_dropTrailing_more {tok rest : List Char} {v : Int} (htok : TokenText tok v) :
    splitAt ',' (dropTrailing (tok ++ ',' :: rest)) = tok :: splitAt ',' (dropTrailing rest) := by
  rw [dropTrailing_append_cons, splitAt_append_cons htok.comma_not_mem]

/-- The first piece of a text is all of it but blanks, or ends at a comma whose rest has the other pieces. -/
theorem splitAt_dropTrailing_cons {t tok : List Char} {toks : List (List Char)}
    (h : splitAt ',' (dropTrailing t) = tok :: toks) :
    (toks = [] ∧ ∃ blanks, t = tok ++ blanks ∧ ∀ c ∈ blanks, c ∈ [' ', '\t', '\r', '\n']) ∨
      ∃ rest, t = tok ++ ',' :: rest ∧ toks = splitAt ',' (dropTrailing rest) := by
  obtain ⟨blanks, ht, hb⟩ := dropTrailing_split t
  rcases splitAt_cons h with ⟨rfl, hu⟩ | ⟨rest, hu, rfl⟩
  · exact .inl ⟨rfl, blanks, hu ▸ ht, fun c hc => (isTrailing_iff c).1 (hb c hc)⟩
  · have ht' : t = tok ++ ',' :: (rest ++ blanks) := by rw [ht, hu]; simp
    have hrest : dropTrailing (rest ++ blanks) = rest := by
      rw [ht', dropTrailing_append_cons] at hu
      exact (List.cons.inj (List.append_cancel_left hu)).2
    exact .inr ⟨rest ++ blanks, ht', by rw [hrest]⟩

/-! ### The parser against the grammar -/

/-- Every text of the grammar is parsed to its values (R234). -/
theorem parseTokens_of_programText {t : List Char} {P : List Int} (h : ProgramText t P) :
    parseTokens (splitAt ',' (dropTrailing t)) = some P := by
  induction h with
  | last htok hv hb =>
    rw [splitAt_dropTrailing_last htok hb]
    exact parseTokens_singleton_some.2 ⟨_, parseToken_some.2 ⟨htok, hv⟩, rfl⟩
  | more htok hv _ ih =>
    rw [splitAt_dropTrailing_more htok]
    exact parseTokens_cons_some.2 ⟨_, _, parseToken_some.2 ⟨htok, hv⟩, ih, rfl⟩

/-- What is parsed is derived by the grammar, one piece of the text for each value (R234, R235). -/
theorem programText_of_parseTokens {t : List Char} {P : List Int}
    (h : parseTokens (splitAt ',' (dropTrailing t)) = some P) : ProgramText t P := by
  induction P generalizing t with
  | nil =>
    obtain ⟨tok, toks, hs⟩ := List.exists_cons_of_ne_nil (splitAt_ne_nil (dropTrailing t))
    rw [hs] at h
    obtain ⟨_, _, _, _, hP⟩ := parseTokens_cons_some.1 h
    cases hP
  | cons v vs ih =>
    obtain ⟨tok, toks, hs⟩ := List.exists_cons_of_ne_nil (splitAt_ne_nil (dropTrailing t))
    rw [hs] at h
    obtain ⟨_, _, hv, hvs, hP⟩ := parseTokens_cons_some.1 h
    cases hP
    obtain ⟨htok, hfit⟩ := parseToken_some.1 hv
    rcases splitAt_dropTrailing_cons hs with ⟨rfl, blanks, rfl, hb⟩ | ⟨rest, rfl, rfl⟩
    · cases hvs
      exact .last htok hfit hb
    · exact .more htok hfit (ih hvs)

theorem parse_ok {t : List Char} {P : List Int} :
    parse t = .ok P ↔ parseTokens (splitAt ',' (dropTrailing t)) = some P := by
  unfold parse
  split <;> simp [*]

/-- `parse` has one failure, and answers it wherever it answers no image (R235). -/
theorem parse_error {t : List Char} : parse t = .error .parseError ↔ ¬ ∃ P, parse t = .ok P := by
  unfold parse
  split <;> simp

theorem parse_ok_iff_programText {t : List Char} {P : List Int} : parse t = .ok P ↔ ProgramText t P :=
  parse_ok.trans ⟨programText_of_parseTokens, parseTokens_of_programText⟩

/-- Settles O57, by cutting a text into tokens as the grammar does, and from the one failure of `parse`. -/
theorem parserAgreesWithTheGrammar : Obligations.ParserAgreesWithTheGrammar := by
  refine ⟨fun t P => parse_ok_iff_programText, fun t => ?_⟩
  simp only [parse_error, parse_ok_iff_programText]

/-- Settles O58, by running the parser on the four texts. -/
theorem programTextExamples : Obligations.ProgramTextExamples := by
  refine ⟨?_, ?_, ?_, ?_⟩ <;> decide

end Sys2Proof.Machine
end

section
/-! SUPPORT. Proofs about the model as a whole: decoding against encoding, ranges and operands, memories as data, what every
instruction leaves unchanged, the invariant of the core, the host's `step()` under fuel, and the assembler. -/

namespace Sys2Proof

/-! ### Decoding against encoding (R97) -/

/-- Settles O3: a cell that decodes is the sum of its fields, so it encodes what it decoded to; and each well-formed instruction's
own cell decodes to it. -/
theorem decodeAcceptsExactlyTheEncodings : Obligations.DecodeAcceptsExactlyTheEncodings := by
  refine fun v i => ⟨fun h => ⟨Machine.decode_wellFormed h, encode_of_decode h⟩, ?_⟩
  rintro ⟨hw, rfl⟩
  exact decode_encode hw

end Sys2Proof

namespace Sys2Proof.Machine

/-! ### Memories as data (R53, R68) -/

theorem read_write (m : Mem) (a b : Nat) (v : Int) : (m.write a v).read b = if b = a then v else m.read b := by
  unfold Mem.write
  split
  · rename_i hv; rw [read_erase, hv]
  · rw [read_insert _ _ _ _ fun c hc => (mem_erase.1 hc).2, read_erase]
    split <;> rfl

/-- Settles O45: a write takes the address's entry out and puts the new one in, where it is not 0. -/
theorem memoryReadAfterWrite : Obligations.MemoryReadAfterWrite := read_write

/-- A canonical memory lists exactly the cells that do not read 0. -/
theorem mem_iff_read {m : Mem} (h : m.wf) {c : Nat × Int} : c ∈ m ↔ c.2 ≠ 0 ∧ m.read c.1 = c.2 := by
  obtain ⟨a, v⟩ := c
  obtain ⟨hsorted, hne⟩ := h
  induction m with
  | nil => simp [eq_comm]
  | cons e m ih =>
    obtain ⟨b, w⟩ := e
    obtain ⟨hb, hsorted⟩ := List.pairwise_cons.1 hsorted
    have ih := ih hsorted fun c hc => hne c (List.mem_cons_of_mem _ hc)
    have hw : w ≠ 0 := hne (b, w) List.mem_cons_self
    rw [List.mem_cons, read_cons]
    by_cases hab : a = b
    · subst hab
      have hnot : (a, v) ∉ m := fun hc => Nat.lt_irrefl a (hb (a, v) hc)
      simp only [Prod.mk.injEq, true_and, hnot, or_false, if_true]
      exact ⟨by rintro rfl; exact ⟨hw, rfl⟩, fun hv => hv.2.symm⟩
    · simpa [hab] using ih

/-- Canonical memories that read the same are equal (R68). -/
theorem mem_ext {m m' : Mem} (h : m.wf) (h' : m'.wf) (hr : ∀ a, m.read a = m'.read a) : m = m' := by
  have hperm : m.Perm m' := by
    refine (List.perm_ext_iff_of_nodup ?_ ?_).2 fun c => ?_
    · exact h.1.imp fun hlt heq => Nat.ne_of_lt hlt (congrArg Prod.fst heq)
    · exact h'.1.imp fun hlt heq => Nat.ne_of_lt hlt (congrArg Prod.fst heq)
    · rw [mem_iff_read h, mem_iff_read h', hr]
  exact hperm.eq_of_pairwise (fun x y _ _ hxy hyx => absurd hyx (Nat.lt_asymm hxy)) h.1 h'.1

/-- Settles O46: the memories on each side are canonical and read the same at every address. -/
theorem equalMemoriesAreEqualData : Obligations.EqualMemoriesAreEqualData := by
  refine ⟨fun m m' => mem_ext, fun m a h h0 => ?_, fun m a v h => ?_⟩
  · refine mem_ext (write_wf a 0 h) h fun b => ?_
    rw [read_write]
    split
    · rename_i hb; rw [hb, h0]
    · rfl
  · refine mem_ext (write_wf a _ (write_wf a v h)) h fun b => ?_
    rw [read_write, read_write]
    split
    · rename_i hb; rw [hb]
    · rfl

/-! ### What an instruction's update may change (R42) -/

/-- The parts of an update and the instructions that have them. -/
structure Update.Frame (u : Update) (i : Instr) (s : State) : Prop where
  memWrite : ∀ d v, u.memWrite = some (d, v) → destination i s = some (.ok d)
  newRb : ∀ b, u.newRb = some b → ∃ m a, i = .adjustRelativeBase m ∧ srcOperand s 1 m = .ok a ∧ b = s.rb + a
  popInput : u.popInput = true → ∃ m v, i = .input m ∧ s.inq = v :: s.inq.tail
  pushOutput : ∀ v, u.pushOutput = some v → ∃ m, i = .output m ∧ srcOperand s 1 m = .ok v

/-- An update that stores one cell and goes on. -/
theorem Update.Frame.of_store {i : Instr} {s : State} {d : Nat} {v : Int} {pc : Option Int}
    (h : destination i s = some (.ok d)) :
    Update.Frame { result := .continue, memWrite := some (d, v), nextPc := pc } i s :=
  ⟨fun _ _ hw => by cases hw; exact h, nofun, nofun, nofun⟩

/-- An update that only moves `pc`. -/
theorem Update.Frame.of_move {i : Instr} {s : State} {pc : Option Int} :
    Update.Frame { result := .continue, nextPc := pc } i s :=
  ⟨nofun, nofun, nofun, nofun⟩

/-- The frame of every instruction. -/
theorem instrCycle_frame {i : Instr} {s : State} {u : Update} (h : instrCycle i s = .ok u) : u.Frame i s := by
  have hu := instrCycle_ok h
  cases i with
  | add m1 m2 m3 | mul m1 m2 m3 | lessThan m1 m2 m3 | equals m1 m2 m3 =>
    obtain ⟨a, b, d, ho, rfl⟩ := hu
    exact .of_store (congrArg some (operandsSSD_ok.1 ho).2.2)
  | jumpIfTrue m1 m2 | jumpIfFalse m1 m2 => obtain ⟨a, b, -, rfl⟩ := hu; exact .of_move
  | output m1 =>
    obtain ⟨a, ho, rfl⟩ := hu
    exact ⟨nofun, nofun, nofun, fun v hv => by cases hv; exact ⟨m1, rfl, ho⟩⟩
  | adjustRelativeBase m1 =>
    obtain ⟨a, ho, rfl⟩ := hu
    exact ⟨nofun, fun b hb => by cases hb; exact ⟨m1, a, rfl, ho, rfl⟩, nofun, nofun⟩
  | input m1 =>
    obtain ⟨d, ho, rfl⟩ := hu
    cases hq : s.inq with
    | nil => exact ⟨nofun, nofun, nofun, nofun⟩
    | cons v q =>
      refine ⟨fun d' v' hw => ?_, nofun, fun _ => ⟨m1, v, rfl, by rw [hq]; rfl⟩, nofun⟩
      cases hw
      exact congrArg some ho
  | halt => rw [hu]; exact ⟨nofun, nofun, nofun, nofun⟩

/-- Settles O27: a commit writes the destination's cell only, and the other ends of a cycle write none. -/
theorem onlyTheDestinationCellChanges : Obligations.OnlyTheDestinationCellChanges := by
  intro i s t h a ha
  rcases exec_next h with ⟨c, rfl⟩ | ⟨m, d, -, -, -, rfl⟩ | ⟨u, hu, -, -, rfl⟩
  · rfl
  · rfl
  rw [commit_mem]
  rcases hw : u.memWrite with _ | ⟨d, v⟩
  · rfl
  · have hne : a ≠ d := by
      rintro rfl
      exact ha ((instrCycle_frame hu).memWrite a v hw)
    exact (read_write s.mem d a v).trans (if_neg hne)

/-- Settles O28: a part of the state differs after a commit only where the update has the part, and its frame names the instruction. -/
theorem registersAndQueuesFrame : Obligations.RegistersAndQueuesFrame := by
  intro i s t h
  rcases exec_next h with ⟨c, rfl⟩ | ⟨m, d, -, -, -, rfl⟩ | ⟨u, hu, -, -, rfl⟩
  · exact ⟨absurd rfl, absurd rfl, absurd rfl, fun _ => .inr ⟨c, rfl⟩, fun _ => ⟨c, rfl⟩⟩
  · exact ⟨absurd rfl, absurd rfl, absurd rfl, absurd rfl, absurd rfl⟩
  have hf := instrCycle_frame hu
  rw [commit_rb, commit_inq, commit_out, commit_status, commit_cause]
  refine ⟨fun hne => ?_, fun hne => ?_, fun hne => ?_, fun hne => ?_, absurd rfl⟩
  · rcases hb : u.newRb with _ | b <;> rw [hb] at hne
    · exact absurd rfl hne
    · exact hf.newRb b hb
  · rcases hp : u.popInput with _ | _ <;> rw [hp] at hne
    · exact absurd rfl hne
    · exact hf.popInput hp
  · rcases hp : u.pushOutput with _ | v <;> rw [hp] at hne
    · exact absurd rfl hne
    · obtain ⟨m, hi, hv⟩ := hf.pushOutput v hp
      exact ⟨m, v, hi, hv, rfl⟩
  · rcases hh : u.halt with _ | _ <;> rw [hh] at hne
    · exact absurd rfl hne
    · exact .inl ⟨instrCycle_halts hu hh, rfl⟩

/-! ### No instruction reads `out`, and only IN reads `inq` (R30, R31) -/

theorem settle_of_check_error {s : State} {u : Update} {c : FaultCause} (hr : u.result ≠ .needMoreInput)
    (hc : checkUpdate u = .error c) : settle s (.ok u) = .next (.fault c, faultEntry c s) := by
  unfold settle; simp only [hr, if_false, hc]

/-- A change `f` of the state that an instruction does not read, and that its fault entries and commits keep, changes nothing the
instruction does. -/
theorem exec_of_unread {f : State → State} {i : Instr} {s t : State} (hi : instrCycle i (f s) = instrCycle i s)
    (hf : ∀ c, faultEntry c (f s) = f (faultEntry c s))
    (hc : ∀ u, instrCycle i s = .ok u → commit u (f s) = f (commit u s)) (h : exec i s = .next t) :
    exec i (f s) = .next (f t) := by
  rw [exec_eq, stateOf_next] at h ⊢
  obtain ⟨r, h⟩ := h
  refine ⟨r, ?_⟩
  rw [hi]
  rcases settle_next h with ⟨c, hx, rfl, rfl⟩ | ⟨u, hx, hr, rfl, rfl⟩ | ⟨u, c, hx, hr, hu, rfl, rfl⟩ |
    ⟨u, hx, hr, hu, rfl, rfl⟩
  · rw [hx, ← hf]; rfl
  · rw [hx, settle_of_wait hr]
  · rw [hx, settle_of_check_error hr hu, hf]
  · rw [hx, settle_of_ok hr hu, hc u hx]

/-- Settles O30: `out` is not read, and a commit appends at its end. -/
theorem earlierOutputChangesNothing : Obligations.EarlierOutputChangesNothing := by
  intro i s t o
  refine exec_of_unread (f := fun s => { s with out := o ++ s.out }) (instrCycle_congr i rfl rfl rfl rfl)
    (fun c => rfl) fun u _ => ?_
  unfold commit
  cases u.pushOutput with
  | none => rfl
  | some v => simp

/-- What an instruction other than IN computes does not depend on the input queue. -/
theorem instrCycle_inq {i : Instr} (hi : ∀ m, i ≠ .input m) (s : State) (q : List Int) :
    instrCycle i { s with inq := q } = instrCycle i s := by
  cases i with
  | input m => exact absurd rfl (hi m)
  | _ => rfl

/-- Settles O31: the queue is not read, and without IN's pop a commit keeps it. -/
theorem onlyInputReadsTheQueue : Obligations.OnlyInputReadsTheQueue := by
  intro i s t q hi
  refine exec_of_unread (f := fun s => { s with inq := q }) (instrCycle_inq hi s q) (fun c => rfl) fun u hu => ?_
  have hpop : u.popInput = false := by
    refine Bool.eq_false_iff.2 fun hp => ?_
    obtain ⟨m, v, rfl, -⟩ := (instrCycle_frame hu).popInput hp
    exact hi m rfl
  simp [commit, hpop]

/-! ### The invariant (R40) -/

section Invariant
variable {s t : State}

/-- Every value read from a memory of cells is a cell. -/
theorem memRead_fitsCell {a v : Int} (hs : s.Inv) (h : memRead s a = .ok v) : fitsCell v = true := by
  rw [(memRead_ok h).2]
  exact hs.memCell _

theorem srcOperand_fitsCell {k : Nat} {m : Mode} {v : Int} (hs : s.Inv) (h : srcOperand s k m = .ok v) :
    fitsCell v = true := by
  obtain ⟨p, hp, hv⟩ := srcOperand_ok.1 h
  cases m with
  | position => exact memRead_fitsCell hs hv
  | immediate => cases hv; exact memRead_fitsCell hs hp
  | relative => exact memRead_fitsCell hs hv

theorem destination_isAddr {i : Instr} {d : Nat} (h : destination i s = some (.ok d)) : isAddr d = true := by
  cases i with
  | add | mul | lessThan | equals | input => exact dstOperand_isAddr (Option.some.inj h)
  | output | jumpIfTrue | jumpIfFalse | adjustRelativeBase | halt => cases h

/-- The parts of the invariant that speak of the memory. -/
structure Mem.Inv (m : Mem) : Prop where
  wf : m.wf
  addr : ∀ c ∈ m, isAddr c.1 = true
  cell : ∀ a, fitsCell (m.read a) = true

theorem State.Inv.memInv (hs : s.Inv) : s.mem.Inv := ⟨hs.memWf, hs.memAddr, hs.memCell⟩

/-- A write of a cell at an address keeps them. -/
theorem Mem.Inv.write {m : Mem} {d : Nat} {v : Int} (hm : m.Inv) (hd : isAddr d = true) (hv : fitsCell v = true) :
    (m.write d v).Inv := by
  refine ⟨write_wf d v hm.wf, fun c hc => ?_, fun a => ?_⟩
  · obtain rfl | ⟨hc, -⟩ := mem_write hc
    · exact hd
    · exact hm.addr c hc
  · rw [read_write]
    split
    · exact hv
    · exact hm.cell a

/-- Fault entry keeps the invariant: a Faulted core has a cause. -/
theorem faultEntry_inv (c : FaultCause) (hs : s.Inv) : (faultEntry c s).Inv :=
  { hs with causeStatus := ⟨nofun, absurd rfl⟩ }

/-- A checked update keeps the invariant: it stores a cell at an address, and what it appends to `out` was read from a cell. -/
theorem commit_inv {i : Instr} {u : Update} (hs : s.Inv) (hready : s.status = .ready) (hu : instrCycle i s = .ok u)
    (hc : checkUpdate u = .ok ()) : (commit u s).Inv := by
  have hframe := instrCycle_frame hu
  obtain ⟨hcell, hbase, hnext⟩ := checkUpdate_ok.1 hc
  have hmem : (commit u s).mem.Inv := by
    rw [commit_mem]
    rcases hw : u.memWrite with _ | ⟨d, v⟩
    · exact hs.memInv
    · exact hs.memInv.write (destination_isAddr (hframe.memWrite d v hw)) (hcell v (congrArg _ hw))
  refine ⟨?_, ?_, hmem.wf, hmem.addr, hmem.cell, ?_, ?_, ?_, rfl, rfl, rfl⟩
  · rcases hn : u.nextPc with _ | a
    · rw [commit_pc, hn]; exact hs.pcAddr
    · rw [commit_pc_target hc hn]; exact hnext a hn
  · rw [commit_rb]
    rcases hb : u.newRb with _ | b
    · exact hs.rbCell
    · exact hbase b hb
  · rw [commit_inq]
    split
    · exact fun v hv => hs.inqCell v (List.mem_of_mem_tail hv)
    · exact hs.inqCell
  · rw [commit_out]
    rcases hp : u.pushOutput with _ | w
    · exact hs.outCell
    · intro v hv
      obtain hv | hv := List.mem_append.1 hv
      · exact hs.outCell v hv
      · obtain ⟨m, -, hw⟩ := hframe.pushOutput w hp
        rw [List.mem_singleton.1 hv]
        exact srcOperand_fitsCell hs hw
  · refine iff_of_true (hs.causeStatus.2 (by rw [hready]; nofun)) ?_
    rw [commit_status, hready]
    split <;> nofun

theorem cycle_inv {r : Result} (hs : s.Inv) (h : cycle s = .next (r, t)) : t.Inv := by
  rcases cycle_next h with ⟨c, -, rfl⟩ | ⟨m, d, -, -, -, -, rfl⟩ | ⟨i, u, -, hu, -, hc, -, rfl⟩
  · exact faultEntry_inv c hs
  · exact hs
  · exact commit_inv hs (cycle_ready h) hu hc

end Invariant

/-- Settles O40: a cycle enters a fault, waits, or commits a checked update, and each keeps the invariant. -/
theorem stepKeepsTheInvariant : Obligations.StepKeepsTheInvariant := by
  intro s t hs h
  obtain ⟨r, hc⟩ := step_next.1 h
  exact cycle_inv hs hc

theorem isAddr_zero : isAddr 0 = true := by decide

/-- The memory of a program image lists addresses and cells only. -/
theorem load_inv {P : List Int} (hcell : ∀ v ∈ P, fitsCell v = true)
    (hlen : P = [] ∨ isAddr ((P.length : Int) - 1) = true) : (Mem.load 0 P).Inv := by
  refine ⟨load_wf 0 P, fun c hc => ?_, fun a => ?_⟩
  · obtain ⟨-, hlt⟩ := load_addr_le hc
    obtain rfl | hlen := hlen
    · cases hc
    · rw [isAddr_iff] at hlen ⊢
      omega
  · rw [read_load, if_pos (Nat.zero_le a), List.getD_eq_getElem?_getD]
    rcases hget : P[a - 0]? with _ | v
    · exact isAddr_fitsCell isAddr_zero
    · exact hcell v (List.mem_of_getElem? hget)

theorem construct_inv {P : List Int} {s : State} (h : construct P = some s) : s.Inv := by
  obtain ⟨hcell, hlen, rfl⟩ := construct_some h
  have hm := load_inv hcell hlen
  exact ⟨isAddr_zero, isAddr_fitsCell isAddr_zero, hm.wf, hm.addr, hm.cell, nofun, nofun, iff_of_true rfl nofun, rfl, rfl, rfl⟩

theorem enqueueInput_inv {s t : State} {v : Int} (hs : s.Inv) (h : enqueueInput v s = some t) : t.Inv := by
  obtain ⟨hv, rfl⟩ := enqueueInput_some h
  refine { hs with inqCell := fun w hw => ?_, room := ⟨rfl, rfl, rfl⟩ }
  obtain hw | hw := List.mem_append.1 hw
  · exact hs.inqCell w hw
  · rw [List.mem_singleton.1 hw]; exact hv

/-- Settles O42: an image is a memory of cells at addresses, and a queued value is a cell. -/
theorem hostOperationsKeepTheInvariant : Obligations.HostOperationsKeepTheInvariant := by
  exact ⟨fun P s => construct_inv, fun s t v => enqueueInput_inv⟩

/-- Settles O43, by induction on what the host has done. -/
theorem reachableStatesMeetTheInvariant : Obligations.ReachableStatesMeetTheInvariant := by
  intro s h
  induction h with
  | construct h => exact construct_inv h
  | enqueue _ h ih => exact enqueueInput_inv ih h
  | cycle _ h ih => exact cycle_inv ih h

/-- Settles O56: no cell is loaded, so every address is unset. -/
theorem resetIsTheEmptyConstruction : Obligations.ResetIsTheEmptyConstruction := by
  exact ⟨rfl, rfl, rfl, rfl, rfl, rfl, rfl, read_nil⟩

/-- Settles O41: the reset state is a construction. -/
theorem resetMeetsTheInvariant : Obligations.ResetMeetsTheInvariant := by
  exact construct_inv resetIsTheEmptyConstruction.1

/-! ### The two queues over a run (R30, R31) -/

/-- A cycle appends to `out` at its end, and takes from `inq` at its head. -/
theorem cycle_queues {s t : State} {r : Result} (h : cycle s = .next (r, t)) : s.out <+: t.out ∧ t.inq <:+ s.inq := by
  rcases cycle_next h with ⟨c, -, rfl⟩ | ⟨m, d, -, -, -, -, rfl⟩ | ⟨i, u, -, -, -, -, -, rfl⟩
  · exact ⟨List.prefix_rfl, List.suffix_rfl⟩
  · exact ⟨List.prefix_rfl, List.suffix_rfl⟩
  · rw [commit_out, commit_inq]
    constructor
    · cases u.pushOutput with
      | none => exact List.prefix_rfl
      | some v => exact List.prefix_append _ _
    · split
      · exact List.tail_suffix _
      · exact List.suffix_rfl

/-- Settles O44, by induction on the number of steps. -/
theorem queuesMoveInOrder : Obligations.QueuesMoveInOrder := by
  intro n
  induction n with
  | zero =>
    intro s t h
    cases h
    exact ⟨List.prefix_rfl, List.suffix_rfl⟩
  | succ n ih =>
    intro s t h
    obtain ⟨u, hstep, hrun⟩ := core_run_succ h
    obtain ⟨r, hc⟩ := step_next.1 hstep
    obtain ⟨hout, hinq⟩ := cycle_queues hc
    obtain ⟨hout', hinq'⟩ := ih u t hrun
    exact ⟨hout.trans hout', hinq'.trans hinq⟩

/-! ### Ranges and operands (00_scope.md R8; 40_engine.md R111 to R113) -/

/-- Settles O9, from the ranges as inequalities. -/
theorem cellAndAddressRanges : Obligations.CellAndAddressRanges := by
  refine ⟨fun w v => ?_, fitsCell_iff, isAddr_iff, fitsCellOf_inf⟩
  rw [fitsCellOf_iff, Nat.cast_pow, Nat.cast_ofNat]

/-- Settles O11: each destination mode checks its address, and no mode reads the memory. -/
theorem destinationModesResolve : Obligations.DestinationModesResolve := by
  exact fun s p => ⟨rfl, rfl, fun m => by cases m <;> rfl⟩

/-- Settles O13: the operands of a format are its single operands, and each is fetched, then resolved. -/
theorem operandsAreTheResolvedParameters : Obligations.OperandsAreTheResolvedParameters := by
  refine ⟨fun s m1 m2 m3 a b d => ?_, fun s m1 m2 a b => ?_, fun s i m a => srcOperand_ok, fun s i m d => dstOperand_ok⟩
  · rw [operandsSSD_ok, srcOperand_ok, srcOperand_ok, dstOperand_ok]
    constructor
    · rintro ⟨⟨p1, h1, ha⟩, ⟨p2, h2, hb⟩, p3, h3, hd⟩
      exact ⟨p1, p2, p3, h1, h2, h3, ha, hb, hd⟩
    · rintro ⟨p1, p2, p3, h1, h2, h3, ha, hb, hd⟩
      exact ⟨⟨p1, h1, ha⟩, ⟨p2, h2, hb⟩, p3, h3, hd⟩
  · rw [operandsSS_ok, srcOperand_ok, srcOperand_ok]
    constructor
    · rintro ⟨⟨p1, h1, ha⟩, p2, h2, hb⟩
      exact ⟨p1, p2, h1, h2, ha, hb⟩
    · rintro ⟨p1, p2, h1, h2, ha, hb⟩
      exact ⟨⟨p1, h1, ha⟩, p2, h2, hb⟩

/-- An instruction whose cycle begins with its operands is stuck where they are. -/
theorem exec_of_bind_stuck {α : Type} {i : Instr} {s : State} {e : Fault} {x : Except Abort α}
    {f : α → Except Abort Update} (hi : instrCycle i s = x >>= f) (hx : x = .error (.stuck e)) :
    exec i s = .fault e := by
  rw [exec_eq, hi, hx]; rfl

/-- Settles O14: an Immediate destination is the one operand that does not resolve, and the instruction begins with its operands. -/
theorem immediateDestinationIsStuck : Obligations.ImmediateDestinationIsStuck := by
  refine ⟨fun mk hmk s m1 m2 a b p ha hb hp => ?_, fun s p hp => exec_of_bind_stuck rfl (dstOperand_of_param hp .immediate)⟩
  have hstuck : operandsSSD s m1 m2 .immediate = .error (.stuck .immediateDestination) :=
    operandsSSD_eq_error.2 (.inr (.inr ⟨a, b, ha, hb, dstOperand_of_param hp .immediate⟩))
  simp only [List.mem_cons, List.not_mem_nil, or_false] at hmk
  rcases hmk with rfl | rfl | rfl | rfl <;> exact exec_of_bind_stuck rfl hstuck

/-! ### One step of a Ready core (R118, R119) -/

theorem step_of_decoded {s : State} {i : Instr} (hs : s.status = .ready) (hf : fetchDecode s = .ok i) :
    step s = exec i s := by
  rw [step_eq, cycle_of_decoded hs hf, exec_eq]

/-- Settles O32: the fetch reads the cell at `pc`, and the step executes what it decodes to. -/
theorem stepRunsTheDecodedInstruction : Obligations.StepRunsTheDecodedInstruction := by
  intro s i hs ha hd _
  exact step_of_decoded hs ((fetchDecode_of_isAddr ha).trans hd)

/-- Settles O33: the decoder's fault is taken before an instruction is executed. -/
theorem stepTakesTheDecodeFault : Obligations.StepTakesTheDecodeFault := by
  exact fun s c => step_of_decode_error

/-- Settles O35: a Ready core's cycle answers one of the five results, and each says where `status` is left. -/
theorem readyCoreAlwaysAnswers : Obligations.ReadyCoreAlwaysAnswers := by
  intro s hs
  obtain ⟨r, t, hc⟩ := cycle_answers hs
  refine ⟨r, t, hc, step_next.2 ⟨r, hc⟩, ?_⟩
  rcases cycle_result hc with ⟨rfl, ht, -⟩ | ⟨rfl, rfl, -⟩ | ⟨m, v, rfl, -, -, rfl⟩ | ⟨rfl, -, rfl⟩ | ⟨c, rfl, rfl⟩
  · simp [ht]
  · simp [hs]
  · simp [hs]
  · simp
  · simp

/-- Where a step stores `v` at `d` and goes `k` cells further, the next fetch reads the memory after the store (R64). -/
theorem fetch_after_store {i : Instr} {s : State} {d k : Nat} {v : Int} {q : List Int} (hs : s.status = .ready)
    (hf : fetchDecode s = .ok i) (ha : isAddr (s.pc + k) = true)
    (he : exec i s = .next { s with mem := s.mem.write d v, inq := q, pc := s.pc + k }) :
    ∃ t, step s = .next t ∧ t.status = .ready ∧ t.pc = s.pc + k ∧
      fetchDecode t = decode (if s.pc + k = d then v else s.mem.read (s.pc + k)) := by
  refine ⟨_, (step_of_decoded hs hf).trans he, hs, rfl, ?_⟩
  rw [fetchDecode_of_isAddr (by exact_mod_cast ha), read_write]

/-- Settles O37: ADD, MUL and IN end with their store, and the memory reads as written. -/
theorem storesReachTheNextFetch : Obligations.StoresReachTheNextFetch := by
  refine ⟨fun m1 m2 m3 s a b d hs ha ho => ⟨fun hf hv => ?_, fun hf hv => ?_⟩, fun m1 s v q d hs ha hf hd hq hv => ?_⟩
  · exact fetch_after_store hs hf ha ((exec_of_store (instrCycle_add ho)).1 hv ha)
  · exact fetch_after_store hs hf ha ((exec_of_store (instrCycle_mul ho)).1 hv ha)
  · exact fetch_after_store hs hf ha (exec_input_store hd hq hv ha)

/-! ### `step()` and `run_until_blocked()` (R124 to R128) -/

/-- Where the first cycle is silent, `step()` returns what it returns from the next state. -/
theorem stepReturns_of_silent {s s' t : State} {r : Result} (hc : cycle s = .next (.continue, s')) :
    StepReturns s r t ↔ StepReturns s' r t := by
  refine ⟨fun h => ?_, .silent hc⟩
  obtain ⟨r1, s1, hc1, hstep⟩ := stepReturns_iff.1 h
  cases hc.symm.trans hc1
  obtain ⟨-, h'⟩ | ⟨hvisible, -⟩ := hstep
  · exact h'
  · exact absurd rfl hvisible

/-- Settles O48, by induction on the cycles of the first result: the second runs through the same ones. -/
theorem stepResultIsUnique : Obligations.StepResultIsUnique := by
  intro s t t' r r' h h'
  induction h with
  | visible hc hr =>
    obtain ⟨rfl, rfl⟩ := (stepReturns_of_visible hc hr).1 h'
    exact ⟨rfl, rfl⟩
  | silent hc _ ih => exact ih ((stepReturns_of_silent hc).1 h')

/-- A silent cycle before `run_until_blocked()` changes nothing it returns. -/
theorem RunReturns.silent {s s' t : State} {vs : List Int} {r : Result} (hc : cycle s = .next (.continue, s'))
    (h : RunReturns s' vs r t) : RunReturns s vs r t := by
  cases h with
  | blocked hs hr => exact .blocked (.silent hc hs) hr
  | output hs hrun => exact .output (.silent hc hs) hrun

section Fuel
variable {n : Nat} {s s' t : State} {v : Int} {vs : List Int} {r : Result}

theorem stepFuel_of_silent (hc : cycle s = .next (.continue, s')) : stepFuel (n + 1) s = stepFuel n s' := by
  rw [stepFuel, hc]

theorem stepFuel_of_visible (hc : cycle s = .next (r, t)) (hr : r ≠ .continue) :
    stepFuel (n + 1) s = .next (some (r, t)) := by
  rw [stepFuel, hc]
  match r, hr with
  | .continue, hr => exact absurd rfl hr
  | .output _, _ | .needMoreInput, _ | .halt, _ | .fault _, _ => rfl

theorem runFuel_of_silent (hc : cycle s = .next (.continue, s')) : runFuel (n + 1) s = runFuel n s' := by
  rw [runFuel, hc]

theorem runFuel_of_output (hc : cycle s = .next (.output v, s')) :
    runFuel (n + 1) s = .next (some (vs, r, t)) ↔ ∃ ws, vs = v :: ws ∧ runFuel n s' = .next (some (ws, r, t)) := by
  rw [runFuel, hc]
  dsimp only
  constructor
  · intro h
    split at h
    case h_1 ws r' t' hrun => cases h; exact ⟨ws, rfl, hrun⟩
    case h_2 hnone => exact absurd h (hnone vs r t)
  · rintro ⟨ws, rfl, hrun⟩
    rw [hrun]

theorem runFuel_of_blocked (hc : cycle s = .next (r, t)) (hr : r ≠ .continue) (ho : ∀ v, r ≠ .output v) :
    runFuel (n + 1) s = .next (some ([], r, t)) := by
  rw [runFuel, hc]
  match r, hr, ho with
  | .continue, hr, _ => exact absurd rfl hr
  | .output v, _, ho => exact absurd rfl (ho v)
  | .needMoreInput, _, _ | .halt, _, _ | .fault _, _, _ => rfl

theorem stepReturns_of_stepFuel (h : stepFuel n s = .next (some (r, t))) : StepReturns s r t := by
  induction n generalizing s with
  | zero => cases h
  | succ n ih =>
    rcases hc : cycle s with ⟨r1, s1⟩ | f | e
    · by_cases hr : r1 = .continue
      · subst hr
        rw [stepFuel_of_silent hc] at h
        exact .silent hc (ih h)
      · rw [stepFuel_of_visible hc hr] at h
        cases h
        exact .visible hc hr
    · rw [stepFuel, hc] at h; cases h
    · rw [stepFuel, hc] at h; cases h

theorem exists_stepFuel (h : StepReturns s r t) : ∃ n, stepFuel n s = .next (some (r, t)) := by
  induction h with
  | visible hc hr => exact ⟨1, stepFuel_of_visible hc hr⟩
  | silent hc _ ih =>
    obtain ⟨n, hn⟩ := ih
    exact ⟨n + 1, (stepFuel_of_silent hc).trans hn⟩

theorem runReturns_of_runFuel (h : runFuel n s = .next (some (vs, r, t))) : RunReturns s vs r t := by
  induction n generalizing s vs with
  | zero => cases h
  | succ n ih =>
    rcases hc : cycle s with ⟨r1, s1⟩ | f | e
    · by_cases hr : r1 = .continue
      · subst hr
        rw [runFuel_of_silent hc] at h
        exact .silent hc (ih h)
      by_cases ho : ∃ v, r1 = .output v
      · obtain ⟨v, rfl⟩ := ho
        obtain ⟨ws, rfl, hrun⟩ := (runFuel_of_output hc).1 h
        exact .output (.visible hc nofun) (ih hrun)
      · rw [not_exists] at ho
        rw [runFuel_of_blocked hc hr ho] at h
        cases h
        exact .blocked (.visible hc hr) ho
    · rw [runFuel, hc] at h; cases h
    · rw [runFuel, hc] at h; cases h

/-- The cycles of one `step()` take fuel from the run, whatever follows its last one. -/
theorem exists_runFuel_of_step {x : Host.Outcome (Option (List Int × Result × State)) Fault Refusal}
    (h : StepReturns s r s') (hlast : ∀ u, cycle u = .next (r, s') → ∃ n, runFuel n u = x) : ∃ n, runFuel n s = x := by
  induction h with
  | visible hc _ => exact hlast _ hc
  | silent hc _ ih =>
    obtain ⟨n, hn⟩ := ih hlast
    exact ⟨n + 1, (runFuel_of_silent hc).trans hn⟩

theorem exists_runFuel (h : RunReturns s vs r t) : ∃ n, runFuel n s = .next (some (vs, r, t)) := by
  induction h with
  | blocked hs ho =>
    obtain ⟨-, -, hr, -⟩ := hs.lastCycle
    exact exists_runFuel_of_step hs fun u hc => ⟨1, runFuel_of_blocked hc hr ho⟩
  | output hs _ ih =>
    obtain ⟨n, hn⟩ := ih
    exact exists_runFuel_of_step hs fun u hc => ⟨n + 1, (runFuel_of_output hc).2 ⟨_, rfl, hn⟩⟩

end Fuel

/-- Settles O49: each result of the functions is one of the relations, by induction on the fuel, and each result of the relations is
found, by induction on its cycles. -/
theorem fuelFindsExactlyTheResults : Obligations.FuelFindsExactlyTheResults := by
  refine ⟨fun s t r => ⟨?_, exists_stepFuel⟩, fun s t vs r => ⟨?_, exists_runFuel⟩⟩
  · rintro ⟨n, h⟩; exact stepReturns_of_stepFuel h
  · rintro ⟨n, h⟩; exact runReturns_of_runFuel h

/-! ### The hang, and waiting for input (R125, R133) -/

/-- A silent cycle that repeats its state is followed by no visible one. -/
theorem not_stepReturns_of_repeat {s t : State} {r : Result} (hc : cycle s = .next (.continue, s)) :
    ¬ StepReturns s r t := by
  intro h
  induction h with
  | visible hc' hr => cases hc.symm.trans hc'; exact hr rfl
  | silent hc' _ ih => cases hc.symm.trans hc'; exact ih hc

/-- An instruction that only moves `pc`, and moves it to itself, repeats the state. -/
theorem cycle_of_move_to_itself {i : Instr} {s : State} {next : Option Int} (hs : s.status = .ready)
    (ha : isAddr s.pc = true) (hf : fetchDecode s = .ok i)
    (hi : instrCycle i s = .ok { result := .continue, nextPc := next }) (hn : next = some (s.pc : Int)) :
    cycle s = .next (.continue, s) := by
  subst hn
  exact cycle_of_ok hs hf hi nofun (checkNextPc_of_isAddr ha)

/-- Settles O50: the target of the taken jump is the one thing its update moves. -/
theorem selfJumpNeverReturns : Obligations.SelfJumpNeverReturns := by
  intro s m1 m2 cond hs ha ho hjump
  have hc : cycle s = .next (.continue, s) := by
    obtain ⟨hf, hcond⟩ | ⟨hf, hcond⟩ := hjump
    · exact cycle_of_move_to_itself hs ha hf (instrCycle_jumpIfTrue ho) (jumpIfTrueUpdate_taken hcond)
    · exact cycle_of_move_to_itself hs ha hf (instrCycle_jumpIfFalse ho) (jumpIfFalseUpdate_taken hcond)
  exact ⟨hc, fun r t => not_stepReturns_of_repeat hc⟩

/-- The cycle that answers NeedMoreInput is that of an IN with its destination resolved and the queue empty, and it left the state. -/
theorem cycle_needMoreInput {s t : State} (h : cycle s = .next (.needMoreInput, t)) :
    t = s ∧ s.inq = [] ∧ ∃ m d, fetchDecode s = .ok (.input m) ∧ dstOperand s 1 m = .ok d := by
  rcases cycle_next h with ⟨c, hr, -⟩ | ⟨m, d, hf, hq, hd, -, ht⟩ | ⟨i, u, -, -, hn, -, hr, -⟩
  · cases hr
  · exact ⟨ht, hq, m, d, hf, hd⟩
  · exact absurd hr.symm hn

/-- With its first value queued, the waiting IN stores that value and goes on. -/
theorem cycle_input_after_wait {t : State} {m : Mode} {d : Nat} {v : Int} (hs : t.status = .ready) (hq : t.inq = [])
    (hf : fetchDecode t = .ok (.input m)) (hd : dstOperand t 1 m = .ok d) (hv : fitsCell v = true)
    (ha : isAddr (t.pc + 2) = true) :
    cycle { t with inq := [v] } = .next (.continue, { t with mem := t.mem.write d v, pc := t.pc + 2 }) := by
  have hi : instrCycle (.input m) { t with inq := [v] } = .ok (inputUpdate d [v] t.pc) := instrCycle_input hd
  rw [cycle_of_ok (s := { t with inq := [v] }) hs hf hi nofun
    (checkUpdate_ok.2 ⟨by simpa [inputUpdate], nofun, by simpa [inputUpdate]⟩)]
  obtain ⟨pc, rb, mem, inq, out, status, cause⟩ := t
  obtain rfl : inq = [] := hq
  rfl

/-- Settles O51: the last cycle of `step()` waited in the state it left, and waits there again. -/
theorem waitingIsIdempotent : Obligations.WaitingIsIdempotent := by
  intro s t h
  obtain ⟨u, hu, -, -⟩ := h.lastCycle
  obtain ⟨rfl, hq, m, d, hf, hd⟩ := cycle_needMoreInput hu
  refine ⟨.visible hu nofun, fun r u => (stepReturns_of_visible hu nofun).1, m, d, hf, hd, fun v u ha henq => ?_⟩
  obtain ⟨hv, rfl⟩ := enqueueInput_some henq
  have hinq : t.inq ++ [v] = [v] := by rw [hq, List.nil_append]
  rw [hinq]
  exact cycle_input_after_wait (cycle_ready hu) hq hf hd hv ha

/-! ### Assembling one instruction (R97 to R100) -/

theorem fitsCell_encode (i : Instr) : fitsCell (encode i) = true := by
  have hdigit : ∀ m : Mode, m.digit ≤ 2 := fun m => by cases m <;> decide
  have h0 := hdigit (i.modes.getD 0 .position)
  have h1 := hdigit (i.modes.getD 1 .position)
  have h2 := hdigit (i.modes.getD 2 .position)
  have hcode : i.code ≤ 99 := by cases i <;> simp [Instr.code]
  rw [encode_eq, fitsCell_iff]
  omega

/-- A mnemonic with its instruction's modes stands for that instruction (R98). -/
theorem instrOf_mnemonic (i : Instr) : instrOf (Instr.mnemonic i).toList i.modes = some i := by
  cases i <;> simp [Instr.mnemonic, Instr.modes, instrOf]

theorem length_of_mapM_some {α β : Type} {f : α → Option β} {xs : List α} {ys : List β} (h : xs.mapM f = some ys) :
    ys.length = xs.length := by
  induction xs generalizing ys with
  | nil => cases h; rfl
  | cons x xs ih =>
    rw [List.mapM_cons] at h
    simp only [Option.bind_eq_bind, Option.bind_eq_some_iff] at h
    obtain ⟨y, -, zs, hzs, hy⟩ := h
    cases hy
    rw [List.length_cons, List.length_cons, ih hzs]

theorem mapM_congr_of_mem {α β : Type} {f g : α → Option β} {xs : List α} (h : ∀ x ∈ xs, f x = g x) :
    xs.mapM f = xs.mapM g := by
  induction xs with
  | nil => rfl
  | cons x xs ih =>
    rw [List.mapM_cons, List.mapM_cons, h x List.mem_cons_self, ih fun y hy => h y (List.mem_cons_of_mem x hy)]

/-- A literal operand is written for the same parameter in every program (R99). -/
theorem raw_of_literal {o : AsmOperand} (h : ∃ k, o = .position (.literal k) ∨ o = .immediate (.literal k) ∨
    o = .relativePlus (.literal k) ∨ o = .relativeMinus (.literal k)) (ls ls' : List AsmLine) : o.raw ls = o.raw ls' := by
  obtain ⟨k, rfl | rfl | rfl | rfl⟩ := h <;> rfl

/-- A program of one line whose cells all fit assembles to them. -/
theorem assemble_instr {mn : List Char} {ops : List AsmOperand} {vs : List Int}
    (h : AsmLine.cells [.instr mn ops] (.instr mn ops) = some vs) (hfit : ∀ v ∈ vs, fitsCell v = true) :
    assemble [.instr mn ops] = some vs := by
  have hcells : [AsmLine.instr mn ops].mapM (AsmLine.cells [.instr mn ops]) = some [vs] := by
    rw [List.mapM_cons, h]; rfl
  unfold assemble
  rw [hcells]
  simpa [labelNames] using hfit

/-- Settles O59: the line's operands give the instruction and its raw parameters, and its cells all fit. -/
theorem instructionLinesAssembleToTheirCells : Obligations.InstructionLinesAssembleToTheirCells := by
  intro i ops ps hw hmodes hraw hfit hlit
  have hps : ops.mapM (AsmOperand.raw [.instr (Instr.mnemonic i).toList ops]) = some ps :=
    (mapM_congr_of_mem fun o ho => raw_of_literal (hlit o ho) _ _).trans hraw
  constructor
  · refine assemble_instr ?_ fun v hv => ?_
    · simp only [AsmLine.cells, hmodes, instrOf_mnemonic, hps, hw, if_true]
    · obtain rfl | hv := List.mem_cons.1 hv
      · exact fitsCell_encode i
      · exact hfit v hv
  · rw [List.length_cons, length_of_mapM_some hraw, Instr.width, Instr.nparams, ← hmodes, List.length_map, Nat.add_comm]

end Sys2Proof.Machine
end
